-- ==== Sys2Proof/Word.lean ====
section
/-! DEFINITION. The words that cross the ports of FCDEC: the request word and the character codes. Bit patterns
and fields are plain unsigned integers (spec/00_scope.md R10: a pattern is "always treated as *unsigned*"), so
they are `Nat`s inside the model and bit vectors only on the ports. -/

namespace Sys2Proof

/-- The request word `cmd`: 3 bits (R40). -/
abbrev RequestWord := BitVec 3

/-- One character code of the text operand: `CHAR_W` = 8 bits (R9). -/
abbrev CharCode := BitVec 8

/-- The text operand: a finite sequence of character codes, first character first (R12, R30). -/
abbrev Text := List CharCode

end Sys2Proof
end

