-- ==== Sys2Proof/Syntax.lean ====
section
/-! DEFINITION. The syntax: the three formats, the two operations, the request words as instructions (one constructor
per row of spec/opcode_table.json, the two reserved rows among them), and the abstract request of R12. A request word
has no operand fields: the operands come from the input ports (R21). -/

namespace Sys2Proof

/-- The closed enumeration of formats (R2, R7). -/
inductive Format where
  | binary16
  | binary32
  | binary64
  deriving DecidableEq, Repr

/-- The two operations the `op` bit selects (R42). -/
inductive Operation where
  | decompose
  | parseHex
  deriving DecidableEq, Repr

/-- The request words (R42, R53): six legal ones and the two that name no format. -/
inductive Instr where
  | decomposeH
  | decomposeS
  | decomposeD
  | reserved011
  | parseHexH
  | parseHexS
  | parseHexD
  | reserved111
  deriving DecidableEq, Repr

/-- The request word of an operation at a format; an absent format is the reserved `fmt` code (R41, R42, R53). -/
def Instr.ofParts : Operation → Option Format → Instr
  | .decompose, some .binary16 => .decomposeH
  | .decompose, some .binary32 => .decomposeS
  | .decompose, some .binary64 => .decomposeD
  | .decompose, none => .reserved011
  | .parseHex, some .binary16 => .parseHexH
  | .parseHex, some .binary32 => .parseHexS
  | .parseHex, some .binary64 => .parseHexD
  | .parseHex, none => .reserved111

/-- DECOMPOSE.f (R42). -/
def Instr.decompose (f : Format) : Instr := .ofParts .decompose (some f)

/-- PARSEHEX.f (R42). -/
def Instr.parseHex (f : Format) : Instr := .ofParts .parseHex (some f)

/-- The abstract request (R12): a pattern to decompose or a text to parse, with its format. -/
inductive Request where
  | decompose (f : Format) (b : Nat)
  | parseHex (f : Format) (t : Text)
  deriving DecidableEq, Repr

/-- The format of an abstract request. -/
def Request.format : Request → Format
  | .decompose f _ => f
  | .parseHex f _ => f

/-- The request word that carries an abstract request (R23). -/
def Request.instr : Request → Instr
  | .decompose f _ => .decompose f
  | .parseHex f _ => .parseHex f

end Sys2Proof
end

