-- ==== Sys2Proof/Machine/Ports.lean ====
section
/-! DEFINITION. What crosses the boundary of the block: the abstract response of R12 and the input and output ports
of R21 and R22. -/

namespace Sys2Proof

/-- The four categories (R12, R63). -/
inductive Category where
  | zero
  | subnormal
  | normal
  | infinityOrNaN
  deriving DecidableEq, Repr

/-- An exact rational `num / den` (R66). The model keeps the denominator of the format, `2^mantissaBits`, unreduced,
so that the numerator is the integer significand of R67. -/
structure Fraction where
  num : Nat
  den : Nat
  deriving DecidableEq, Repr

/-- The rational number a fraction denotes. -/
def Fraction.toRat (q : Fraction) : ℚ := (q.num : ℚ) / (q.den : ℚ)

/-- The record of a DECOMPOSE response (R12). `mantissaFraction` has no value for InfinityOrNaN (R66, U1). -/
structure DecodedFields where
  sign : Nat
  exponentRaw : Nat
  mantissaRaw : Nat
  exponentUnbiased : Int
  mantissaFraction : Option Fraction
  category : Category
  deriving DecidableEq, Repr

/-- The one error of the block (R100); it records nothing besides its tag (R102). -/
inductive ParseError where
  | malformedHex
  deriving DecidableEq, Repr

/-- The response of a PARSEHEX request (R12): a bit pattern, or the error, which carries no pattern. -/
inductive ParseResult where
  | ok (b : Nat)
  | err (e : ParseError)
  deriving DecidableEq, Repr

/-- The response to a request (R12). -/
inductive Response where
  | fields (d : DecodedFields)
  | parsed (r : ParseResult)
  deriving DecidableEq, Repr

/-- The input ports (R21). `text` lists the entries of the text port, so its length is the instance's TEXT_MAX;
`textLen` is the unsigned integer on `text_len`. -/
structure InPorts where
  cmd : RequestWord
  bitsIn : BitVec 64
  textLen : Nat
  text : List CharCode
  deriving DecidableEq, Repr

/-- The output ports (R22). -/
structure OutPorts where
  err : BitVec 1
  bitsOut : BitVec 64
  sign : BitVec 1
  expRaw : BitVec 11
  manRaw : BitVec 52
  expUnb : BitVec 12
  sig : BitVec 53
  cat : BitVec 2
  deriving DecidableEq, Repr, Inhabited

end Sys2Proof
end

