-- ==== Sys2Proof/Config.lean ====
section
/-! DEFINITION. What an implementation fixes and what the spec leaves free. `T_PD` (R9, R120) is not here: no rule
depends on it and the model has no time. -/

namespace Sys2Proof

/-- How far this instance's TEXT_MAX lies above 18; the spec leaves it OPEN (R9, D12). Uninterpreted: log entry 5. -/
opaque Config.textMaxAbove : Nat

/-- `TEXT_MAX`, OPEN with `TEXT_MAX >= 18` (R9). -/
def Config.textMax : Nat := Config.textMaxAbove + 18

/-- `LEN_W = ceil(log2(TEXT_MAX + 1))`, the width of `text_len` (R9). -/
def Config.lenW : Nat := Nat.clog 2 (Config.textMax + 1)

/-- FREE VALUES of the output ports to which the spec gives "any value": the ports of the operation that is not
selected (R26, U4) and `sig` for InfinityOrNaN (R24, R67, U1). Uninterpreted. A function of the inputs because the
outputs are "a function of its inputs at that instant and of nothing else" (R14), and applied only to the inputs the
request reads (`readByDecompose`, `readByParseHex`), because no output depends on an ignored input (R32, U6, U7): log entries
3 and 4. -/
opaque Config.freePins : InPorts → OutPorts

end Sys2Proof
end

