-- ==== Sys2Proof/Machine/Format.lean ====
section
/-! DEFINITION. The constants of the three formats (spec/00_scope.md R7, R8). They are constants of the hardware,
"a fixed table indexed by Format". -/

namespace Sys2Proof

/-- The width of the exponent field (R7). Binary64's 11 is taken by the spec from general knowledge of IEEE-754
(decision D25, G1): PRESUMED, log entry 9. -/
def Format.exponentBits : Format → Nat
  | .binary16 => 5
  | .binary32 => 8
  | .binary64 => 11

/-- The width of the mantissa field (R7). Binary64's 52: PRESUMED, log entry 9. -/
def Format.mantissaBits : Format → Nat
  | .binary16 => 10
  | .binary32 => 23
  | .binary64 => 52

/-- The width of a bit pattern (R7). -/
def Format.totalBits : Format → Nat
  | .binary16 => 16
  | .binary32 => 32
  | .binary64 => 64

/-- `bias = 2^(exponentBits-1) - 1` (R7). -/
def Format.bias (f : Format) : Nat := 2 ^ (f.exponentBits - 1) - 1

/-- `allOnes(n) = 2^n - 1` (R8). -/
def allOnes (n : Nat) : Nat := 2 ^ n - 1

/-- `hexDigits(f) = totalBits(f) / 4` (R8). -/
def Format.hexDigits (f : Format) : Nat := f.totalBits / 4

end Sys2Proof
end

