-- ==== Sys2Proof/WellFormed.lean ====
section
/-! DEFINITION. What the host may present: a request word that names a format, an operand of the format's range, and
input ports of the instance's size. -/

namespace Sys2Proof

/-- The request word names a format (R53: "The host must not present" the two reserved words; premise 1 of R126). -/
def Instr.wellFormed : Instr → Bool
  | .decomposeH => true
  | .decomposeS => true
  | .decomposeD => true
  | .reserved011 => false
  | .parseHexH => true
  | .parseHexS => true
  | .parseHexD => true
  | .reserved111 => false

/-- A bit pattern of format `f`: `0 <= b < 2^totalBits` (R12). -/
def Format.fits (f : Format) (b : Nat) : Bool := decide (b < 2 ^ f.totalBits)

/-- An abstract request the host can present (R12): a pattern of the format's width, or a text of at most TEXT_MAX
characters. -/
def Request.wellFormed : Request → Bool
  | .decompose f b => f.fits b
  | .parseHex _ t => decide (t.length ≤ Config.textMax)

/-- The input ports have the instance's size (R9, R21): TEXT_MAX text entries, `text_len` of LEN_W bits. -/
def InPorts.wellFormed (p : InPorts) : Bool :=
  decide (p.text.length = Config.textMax) && decide (p.textLen < 2 ^ Config.lenW)

end Sys2Proof
end

