-- ==== Sys2Proof/Decode.lean ====
section
/-! DEFINITION. The request word read and written (spec/30_encoding.md R40 to R42, R53). -/

namespace Sys2Proof

/-- Why a number is no request word. -/
inductive DecodeError where
  /-- The number has a bit above bit 2: `cmd` has 3 bits (R40). -/
  | widerThanRequestWord
  deriving DecidableEq, Repr

/-- `cmd[2]`, the operation: 0 DECOMPOSE, 1 PARSEHEX (R40, R42). -/
def decodeOperation (op : BitVec 1) : Operation :=
  if op = 0b0#1 then .decompose else .parseHex

/-- `cmd[1:0]`, the format; `0b11` names none (R41). -/
def decodeFormat (fmt : BitVec 2) : Option Format :=
  if fmt = 0b00#2 then some .binary16
  else if fmt = 0b01#2 then some .binary32
  else if fmt = 0b10#2 then some .binary64
  else none

/-- The request word read by its two fields (R40). Every word decodes; the two reserved ones decode to their own
rows, which `exec` refuses (R53). -/
def decode (cmd : RequestWord) : Instr :=
  .ofParts (decodeOperation (cmd.extractLsb' 2 1)) (decodeFormat (cmd.extractLsb' 0 2))

/-- Decoding of any number: one with a bit above bit 2 is no request word and is rejected by name (R40). -/
def decodeWord (w : Nat) : Except DecodeError Instr :=
  if w < 2 ^ 3 then .ok (decode (BitVec.ofNat 3 w)) else .error .widerThanRequestWord

/-- The code of an operation on `cmd[2]` (R42). -/
def encodeOperation : Operation → BitVec 1
  | .decompose => 0b0#1
  | .parseHex => 0b1#1

/-- The code of a format on `cmd[1:0]` (R41); the reserved code for an absent one (R53). -/
def encodeFormat : Option Format → BitVec 2
  | some .binary16 => 0b00#2
  | some .binary32 => 0b01#2
  | some .binary64 => 0b10#2
  | none => 0b11#2

/-- The operation an instruction's word asks for (R42). -/
def Instr.operation : Instr → Operation
  | .decomposeH | .decomposeS | .decomposeD | .reserved011 => .decompose
  | .parseHexH | .parseHexS | .parseHexD | .reserved111 => .parseHex

/-- The format an instruction's word names, if any (R42, R53). -/
def Instr.format : Instr → Option Format
  | .decomposeH | .parseHexH => some .binary16
  | .decomposeS | .parseHexS => some .binary32
  | .decomposeD | .parseHexD => some .binary64
  | .reserved011 | .reserved111 => none

/-- The request word of an instruction: `cmd = {op, fmt}` (R40). -/
def encode (i : Instr) : RequestWord := encodeOperation i.operation ++ encodeFormat i.format

/-- The instruction read from a row's word, numbered as spec/opcode_table.json numbers it. The word is the 3-bit `cmd`
whatever number of whole bytes the host counts for it: log entry 10. -/
def decodeTableWord (_nbits w : Nat) : Option Instr :=
  match decodeWord w with
  | .ok i => some i
  | .error .widerThanRequestWord => none

end Sys2Proof
end

