-- ==== Sys2Proof/Machine/Flags.lean ====
section
/-! DEFINITION. The two response fields that look like flags (R17): the category and the error code. Neither is
stored. -/

namespace Sys2Proof.Machine

/-- The category, "determined solely by `exponentRaw` and `mantissaRaw`" (R63). -/
def categorize (f : Format) (exponentRaw mantissaRaw : Nat) : Category :=
  if exponentRaw = 0 then (if mantissaRaw = 0 then .zero else .subnormal)
  else if exponentRaw = allOnes f.exponentBits then .infinityOrNaN
  else .normal

/-- The code of a category on the `cat` port (R64). -/
def catCode : Category → BitVec 2
  | .zero => 0b00#2
  | .subnormal => 0b01#2
  | .normal => 0b10#2
  | .infinityOrNaN => 0b11#2

/-- The `err` port when there is no error (R100). -/
def errNone : BitVec 1 := 0#1

/-- The `err` code of an error (R100). -/
def errCode : ParseError → BitVec 1
  | .malformedHex => 1#1

end Sys2Proof.Machine
end

