-- ==== Sys2Proof/Machine/Operands.lean ====
section
/-! DEFINITION. The operands a request takes from the input ports, the part of the ports it reads, and the character
predicates of R48. -/

namespace Sys2Proof.Machine

/-- The pattern operand of DECOMPOSE: `bits_in[totalBits-1:0]`; the bits above are ignored (R23, R32). -/
def patternOperand (f : Format) (p : InPorts) : Nat := p.bitsIn.toNat % 2 ^ f.totalBits

/-- The first `n` entries of the text port, or nothing if it has fewer. -/
def firstEntries : Nat → List CharCode → Option Text
  | 0, _ => some []
  | _ + 1, [] => none
  | n + 1, c :: cs => (firstEntries n cs).map (c :: ·)

/-- The text operand of PARSEHEX: `text[0]` to `text[text_len-1]`; entries at index `text_len` and above are ignored.
Nothing when `text_len > TEXT_MAX`: the string is then longer than every accepted one (R47). -/
def textOperand (p : InPorts) : Option Text := firstEntries p.textLen p.text

/-- What DECOMPOSE.f reads of its input ports: the request word and the pattern. The bits of `bits_in` above it
"cannot influence any output" (R32, R73 d, U6), and on the text operand "no output depends" (U7): both stand here as
nothing. -/
def readByDecompose (f : Format) (p : InPorts) : InPorts :=
  { cmd := encode (.decompose f)
    bitsIn := BitVec.ofNat 64 (patternOperand f p)
    textLen := 0
    text := [] }

/-- What PARSEHEX.f reads of its input ports: the request word, `text_len`, and the entries below `text_len`. `bits_in`
and the later entries are ignored, "no output depends on them" (U7): they stand here as nothing. -/
def readByParseHex (f : Format) (p : InPorts) : InPorts :=
  { cmd := encode (.parseHex f)
    bitsIn := 0#64
    textLen := p.textLen
    text := p.text.take p.textLen }

/-- `hexVal(c)` (R48); no value for a code that is no hex digit. ASCII codes: log entry 9. -/
def hexVal (c : CharCode) : Option Nat :=
  if 0x30 ≤ c.toNat ∧ c.toNat ≤ 0x39 then some (c.toNat - 0x30)
  else if 0x41 ≤ c.toNat ∧ c.toNat ≤ 0x46 then some (c.toNat - 0x41 + 10)
  else if 0x61 ≤ c.toNat ∧ c.toNat ≤ 0x66 then some (c.toNat - 0x61 + 10)
  else none

/-- `isHex(c)` (R48). -/
def isHex (c : CharCode) : Bool := (hexVal c).isSome

/-- The digit `0` (R48). -/
def charZero : CharCode := 0x30#8

/-- `isPrefixX(c)`: exactly `x` and `X` (R48). -/
def isPrefixX (c : CharCode) : Bool := c == 0x78#8 || c == 0x58#8

end Sys2Proof.Machine
end

