-- ==== Sys2Proof/Machine/Codec.lean ====
section
/-! DEFINITION. The two functions of the block, written once for every format: `decompose` (spec/40_decompose.md R58)
and `parseHex` (spec/41_parsehex.md R76). -/

namespace Sys2Proof.Machine

/-- `sign = (bits >> (exponentBits + mantissaBits)) & 1` (R59). -/
def signOf (f : Format) (b : Nat) : Nat := (b >>> (f.exponentBits + f.mantissaBits)) &&& 1

/-- `exponentRaw = (bits >> mantissaBits) & (2^exponentBits - 1)` (R60). -/
def exponentRawOf (f : Format) (b : Nat) : Nat := (b >>> f.mantissaBits) &&& allOnes f.exponentBits

/-- `mantissaRaw = bits & (2^mantissaBits - 1)` (R61). -/
def mantissaRawOf (f : Format) (b : Nat) : Nat := b &&& allOnes f.mantissaBits

/-- `exponentUnbiased = exponentRaw - bias`, exact and signed, in every category (R62). -/
def exponentUnbiasedOf (f : Format) (exponentRaw : Nat) : Int := (exponentRaw : Int) - (f.bias : Int)

/-- The integer significand: the stored mantissa with the implicit leading 0 or 1 in front; none for InfinityOrNaN
(R67). -/
def significandOf (f : Format) (mantissaRaw : Nat) : Category → Option Nat
  | .zero => some mantissaRaw
  | .subnormal => some mantissaRaw
  | .normal => some (2 ^ f.mantissaBits + mantissaRaw)
  | .infinityOrNaN => none

/-- `mantissaFraction`: the significand over `2^mantissaBits`, absent for InfinityOrNaN (R66, R67). -/
def mantissaFractionOf (f : Format) (mantissaRaw : Nat) (c : Category) : Option Fraction :=
  (significandOf f mantissaRaw c).map fun S => { num := S, den := 2 ^ f.mantissaBits }

/-- `decompose(b, f)` (R58). -/
def decompose (f : Format) (b : Nat) : DecodedFields :=
  { sign := signOf f b
    exponentRaw := exponentRawOf f b
    mantissaRaw := mantissaRawOf f b
    exponentUnbiased := exponentUnbiasedOf f (exponentRawOf f b)
    mantissaFraction :=
      mantissaFractionOf f (mantissaRawOf f b) (categorize f (exponentRawOf f b) (mantissaRawOf f b))
    category := categorize f (exponentRawOf f b) (mantissaRawOf f b) }

/-- The optional prefix `0x` or `0X`, removed once (R78). -/
def stripPrefix : Text → Text
  | c₀ :: c₁ :: rest => if c₀ = charZero ∧ isPrefixX c₁ = true then rest else c₀ :: c₁ :: rest
  | t => t

/-- `b = b * 16 + hexVal(d[k])` for each digit in order, starting from `b` (R76, R77); nothing if some character is
no hex digit (R80). -/
def accumulate : Nat → Text → Option Nat
  | b, [] => some b
  | b, c :: cs =>
    match hexVal c with
    | some v => accumulate (b * 16 + v) cs
    | none => none

/-- `parseHex(t, f)` (R76): the prefix (R78), the length check (R79), the digit check (R80), the value (R77). -/
def parseHex (f : Format) (t : Text) : ParseResult :=
  if (stripPrefix t).length = f.hexDigits then
    match accumulate 0 (stripPrefix t) with
    | some b => .ok b
    | none => .err .malformedHex
  else .err .malformedHex

/-- The function `F` of the block, from request to response (R37, R122). -/
def answer : Request → Response
  | .decompose f b => .fields (decompose f b)
  | .parseHex f t => .parsed (parseHex f t)

end Sys2Proof.Machine
end

