-- ==== Sys2Proof/Machine/Pins.lean ====
section
/-! DEFINITION. A response on the output ports (spec/10_state.md R24 to R26). A port that is not part of the response
carries the free value of the inputs its request reads (R26, R32; log entry 3). -/

namespace Sys2Proof.Machine

/-- `zext_n(v)` (R11). -/
def zext (n v : Nat) : BitVec n := BitVec.ofNat n v

/-- `sext_n(v)`: two's complement (R11). -/
def sext (n : Nat) (v : Int) : BitVec n := BitVec.ofInt n v

/-- `mantissaFraction * 2^mantissaBits`, the integer the `sig` port carries (R24, R67). -/
def sigInteger (f : Format) (q : Fraction) : Nat := q.num * 2 ^ f.mantissaBits / q.den

/-- The output ports that carry the fields `d` of a DECOMPOSE.f request presented on `p` (R24). -/
def fieldsPins (f : Format) (d : DecodedFields) (p : InPorts) : OutPorts :=
  { err := errNone
    bitsOut := (Config.freePins (readByDecompose f p)).bitsOut
    sign := zext 1 d.sign
    expRaw := zext 11 d.exponentRaw
    manRaw := zext 52 d.mantissaRaw
    expUnb := sext 12 d.exponentUnbiased
    sig := match d.mantissaFraction with
      | some q => zext 53 (sigInteger f q)
      | none => (Config.freePins (readByDecompose f p)).sig
    cat := catCode d.category }

/-- The output ports that carry `Ok(b)`, the response to a PARSEHEX.f request presented on `p` (R25). -/
def patternPins (f : Format) (b : Nat) (p : InPorts) : OutPorts :=
  { Config.freePins (readByParseHex f p) with err := errNone, bitsOut := zext 64 b }

/-- The output ports that carry the error of a PARSEHEX.f request presented on `p`: its code, and no bits (R25, R100). -/
def errorPins (f : Format) (e : ParseError) (p : InPorts) : OutPorts :=
  { Config.freePins (readByParseHex f p) with err := errCode e, bitsOut := 0#64 }

end Sys2Proof.Machine
end

