-- ==== Sys2Proof/Machine/State.lean ====
section
/-! DEFINITION. The state, the faults and refusals, and the state after reset. The block itself has no state (R14):
what is held here is its boundary, the input ports as the host drives them and the outputs and the response as the host
last read them (log entry 1). -/

namespace Sys2Proof.Machine

/-- The boundary of the block. `response` is the response of the last answered request, none before the first
(R115, R124). No meaning reads `out` or `response`. -/
structure State where
  inp : InPorts
  out : OutPorts
  response : Option Response
  deriving DecidableEq, Repr

/-- The spec gives the block no trap, no exception and no other stop: `MalformedHex` is a value in the response
(R100, R107). So there is no fault, and nobody raises one; an empty type is safe. -/
inductive Fault where
  deriving DecidableEq, Repr

/-- Why the model gives a request no meaning. -/
inductive Refusal where
  /-- Raised by an arm of `exec` for an instruction that has no meaning yet. Safe: the run stops. -/
  | notModelled (mnemonic : String)
  /-- Raised by the two request words with `fmt = 0b11`, which name no format: "A model refuses such a request"
  (R53). Safe: nothing can be claimed of a refused run. -/
  | reservedFormat
  deriving DecidableEq, Repr

/-- What the host's drivers hold before the first request; the spec gives no value (R115). DESIGN CHOICE: all zero,
log entry 2. -/
def resetInputs : InPorts :=
  { cmd := 0b000#3
    bitsIn := 0#64
    textLen := 0
    text := List.replicate Config.textMax 0#8 }

/-- The launch state. There is no reset and nothing to initialise (R114, R116): the outputs are, "power-up included",
the function of the inputs (R27), here of DECOMPOSE.H on a zero pattern, and no request has been answered (R115). -/
def State.reset : State :=
  { inp := resetInputs
    out := fieldsPins .binary16 (decompose .binary16 (patternOperand .binary16 resetInputs)) resetInputs
    response := none }

end Sys2Proof.Machine
end

