-- ==== Sys2Proof/Machine/Ops.lean ====
section
/-! DEFINITION. The operations every meaning is made of: fetching the request word, answering with fields or with a
pattern, and the delivery of the error. The inputs are the host's and no operation changes them (R14, R35, R118). -/

namespace Sys2Proof.Machine

/-- The request word at the inputs (R40); there is no program counter and no fetch from memory (R16). -/
def fetchWord (s : State) : RequestWord := s.inp.cmd

/-- Drive the output ports and give the response. -/
def respond (out : OutPorts) (r : Response) (s : State) : State :=
  { s with out := out, response := some r }

/-- Answer a DECOMPOSE request with its fields (R24). -/
def answerFields (f : Format) (d : DecodedFields) (s : State) : State :=
  respond (fieldsPins f d s.inp) (.fields d) s

/-- Answer a PARSEHEX.f request with `Ok(b)` (R25). -/
def answerPattern (f : Format) (b : Nat) (s : State) : State :=
  respond (patternPins f b s.inp) (.parsed (.ok b)) s

/-- `raise MalformedHex` from a PARSEHEX.f request, the only exception of the block: "The operation ends and its response is
`Err(MalformedHex)`. That is all." Nothing is saved, no mode changes, no control is transferred (R107), so there is no
return operation either (R109). -/
def raiseError (f : Format) (e : ParseError) (s : State) : State :=
  respond (errorPins f e s.inp) (.parsed (.err e)) s

/-- DECOMPOSE at a format: the fields of the pattern operand (R58). -/
def doDecompose (f : Format) (s : State) : State :=
  answerFields f (decompose f (patternOperand f s.inp)) s

/-- PARSEHEX at a format: the pattern the text operand spells, or the error (R76). A `text_len` beyond the text port is
a text longer than every accepted one (R47). -/
def doParseHex (f : Format) (s : State) : State :=
  match textOperand s.inp with
  | none => raiseError f .malformedHex s
  | some t =>
    match parseHex f t with
    | .ok b => answerPattern f b s
    | .err e => raiseError f e s

end Sys2Proof.Machine
end

