-- ==== Sys2Proof/Machine/Decompose.lean ====
section
/-! DEFINITION. The three DECOMPOSE operations (spec/40_decompose.md R68 to R70). -/

namespace Sys2Proof.Machine

/-- DECOMPOSE.H (R68). -/
def execDecomposeH (s : State) : Host.Outcome State Fault Refusal := .next (doDecompose .binary16 s)

/-- DECOMPOSE.S (R69). -/
def execDecomposeS (s : State) : Host.Outcome State Fault Refusal := .next (doDecompose .binary32 s)

/-- DECOMPOSE.D (R70). -/
def execDecomposeD (s : State) : Host.Outcome State Fault Refusal := .next (doDecompose .binary64 s)

end Sys2Proof.Machine
end

