-- ==== Sys2Proof/Machine/ParseHex.lean ====
section
/-! DEFINITION. The three PARSEHEX operations (spec/41_parsehex.md R82 to R84). -/

namespace Sys2Proof.Machine

/-- PARSEHEX.H (R82). -/
def execParseHexH (s : State) : Host.Outcome State Fault Refusal := .next (doParseHex .binary16 s)

/-- PARSEHEX.S (R83). -/
def execParseHexS (s : State) : Host.Outcome State Fault Refusal := .next (doParseHex .binary32 s)

/-- PARSEHEX.D (R84). -/
def execParseHexD (s : State) : Host.Outcome State Fault Refusal := .next (doParseHex .binary64 s)

end Sys2Proof.Machine
end

