-- ==== Sys2Proof/Machine/Reserved.lean ====
section
/-! DEFINITION. The two request words that name no format: "A model refuses such a request" (spec/30_encoding.md R53),
whatever its text or bits are (spec/60_exceptions.md R106). -/

namespace Sys2Proof.Machine

/-- Request word `0b011` (R53). -/
def execReserved011 (_s : State) : Host.Outcome State Fault Refusal := .refused .reservedFormat

/-- Request word `0b111` (R53). -/
def execReserved111 (_s : State) : Host.Outcome State Fault Refusal := .refused .reservedFormat

end Sys2Proof.Machine
end

