-- ==== Sys2Proof/Machine/Dispatch.lean ====
section
/-! DEFINITION. The meaning of every request word. -/

namespace Sys2Proof.Machine

def exec (i : Instr) (s : State) : Host.Outcome State Fault Refusal :=
  match i with
  | .decomposeH => Sys2Proof.Machine.execDecomposeH s
  | .decomposeS => Sys2Proof.Machine.execDecomposeS s
  | .decomposeD => Sys2Proof.Machine.execDecomposeD s
  | .reserved011 => Sys2Proof.Machine.execReserved011 s
  | .parseHexH => Sys2Proof.Machine.execParseHexH s
  | .parseHexS => Sys2Proof.Machine.execParseHexS s
  | .parseHexD => Sys2Proof.Machine.execParseHexD s
  | .reserved111 => Sys2Proof.Machine.execReserved111 s

end Sys2Proof.Machine
end

