-- ==== Sys2Proof/Machine/Step.lean ====
section
/-! DEFINITION. One step: the block answers the request at its inputs (spec/70_reset_and_hazards.md R122, R124). -/

namespace Sys2Proof.Machine

/-- "from any request `q` with a legal `fmt`, the response `F(q)`; from a request with `fmt = 0b11`, refusal" (R122). -/
def step (s : State) : Host.Outcome State Fault Refusal := exec (decode (fetchWord s)) s

/-- The host drives the request word `w` on `cmd` and leaves every other port as it is; the next step answers it
(log entry 8). -/
def State.withFetchWord (s : State) (_nbits w : Nat) : State :=
  { s with inp := { s.inp with cmd := BitVec.ofNat 3 w } }

end Sys2Proof.Machine
end

