-- ==== Sys2Proof/Machine/Spelling.lean ====
section
/-! DEFINITION. The spellings of a bit pattern (spec/30_encoding.md R50 read backwards, spec/41_parsehex.md R86): the
encoder of the text operand, written from R48 to R50. No step uses it. -/

namespace Sys2Proof.Machine

/-- The three choices of prefix (R49, R86). -/
inductive Prefix where
  | none
  | lowerX
  | upperX
  deriving DecidableEq, Repr

/-- The characters of a prefix: nothing, `0x` or `0X`. -/
def Prefix.chars : Prefix → Text
  | .none => []
  | .lowerX => [0x30#8, 0x78#8]
  | .upperX => [0x30#8, 0x58#8]

/-- The hex digit of a value 0 to 15, a letter in upper or lower case (R48). -/
def hexChar (upper : Bool) (v : Nat) : CharCode :=
  if v < 10 then BitVec.ofNat 8 (0x30 + v)
  else if upper then BitVec.ofNat 8 (0x41 + (v - 10))
  else BitVec.ofNat 8 (0x61 + (v - 10))

/-- The `n` hex digits of `b`, most significant first (R50). `upper k` is the letter case of the digit that has `k`
digits after it. -/
def spellDigits (upper : Nat → Bool) : Nat → Nat → Text
  | 0, _ => []
  | n + 1, b => hexChar (upper n) (b / 16 ^ n % 16) :: spellDigits upper n b

/-- A spelling of the pattern `b` of format `f` (R49, R50). -/
def spell (f : Format) (pre : Prefix) (upper : Nat → Bool) (b : Nat) : Text :=
  pre.chars ++ spellDigits upper f.hexDigits b

end Sys2Proof.Machine
end

