-- ==== Sys2Proof/Machine/Value.lean ====
section
/-! DEFINITION. The value a pattern denotes (spec/40_decompose.md R71): "a spec-level function for stating and testing
claims; FCDEC has no port for it". No step uses it. -/

namespace Sys2Proof.Machine

/-- `(-1)^sign × 2^k × mantissaFraction`. -/
def scaled (d : DecodedFields) (k : Int) : Option ℚ :=
  d.mantissaFraction.map fun q => (-1 : ℚ) ^ d.sign * (2 : ℚ) ^ k * q.toRat

/-- `Val(d)` (R71): a subnormal's power of two is `1 - bias`, a normal's `exponentUnbiased`. -/
def val (f : Format) (d : DecodedFields) : Option ℚ :=
  match d.category with
  | .zero => some 0
  | .subnormal => scaled d (1 - (f.bias : Int))
  | .normal => scaled d d.exponentUnbiased
  | .infinityOrNaN => none

end Sys2Proof.Machine
end

