-- ==== Sys2Proof/Machine/Host.lean ====
section
/-! DEFINITION. The host: how it presents a request on the ports (spec/10_state.md R23), and host sequences, the only
"programs" of a block that stores none (spec/70_reset_and_hazards.md R125), CONVERTHEX among them. -/

namespace Sys2Proof.Machine

/-- `bits_in` with the pattern `b` in its low `totalBits` bits and whatever the host drives above (R23, R32). -/
def overwriteLow (f : Format) (b : Nat) (old : BitVec 64) : BitVec 64 :=
  BitVec.ofNat 64 (old.toNat / 2 ^ f.totalBits * 2 ^ f.totalBits + b % 2 ^ f.totalBits)

/-- The abstract request on the ports (R23): every bit and entry the request does not name stays as the host last
drove it. -/
def present : Request → InPorts → InPorts
  | .decompose f b, p => { p with cmd := encode (.decompose f), bitsIn := overwriteLow f b p.bitsIn }
  | .parseHex f t, p =>
    { p with cmd := encode (.parseHex f), textLen := t.length, text := t ++ p.text.drop t.length }

/-- The host changes what it drives; the outputs it read stay read. -/
def State.drive (p : InPorts) (s : State) : State := { s with inp := p }

/-- A host sequence (R125): the host stops, presents a request, or drives the ports raw (the reserved words included,
R123); what it does next may depend on the response (R87, R121). -/
inductive HostProgram where
  | done
  | ask (r : Request) (next : Response → HostProgram)
  | drive (p : InPorts) (next : Response → HostProgram)

/-- How a host sequence ends (R124): finished with the list of its responses, or marked refused. -/
inductive HostRun where
  | finished (s : State) (responses : List Response)
  | refused (r : Refusal) (responses : List Response)
  deriving DecidableEq, Repr

/-- A response read before the rest of the run. -/
def HostRun.after (a : Response) : HostRun → HostRun
  | .finished s rs => .finished s (a :: rs)
  | .refused r rs => .refused r (a :: rs)

/-- One request of a host sequence: a step on the ports as driven, its response read, and the rest of the sequence. -/
def askPorts (p : InPorts) (s : State) (next : Response → State → HostRun) : HostRun :=
  match step (s.drive p) with
  | .next t =>
    match t.response with
    | some a => (next a t).after a
    | none => .finished t []
  | .fault e => nomatch e
  | .refused r => .refused r []

/-- A host sequence run on the block (R125). -/
def HostProgram.run : HostProgram → State → HostRun
  | .done, s => .finished s []
  | .ask r next, s => askPorts (present r s.inp) s fun a t => (next a).run t
  | .drive p next, s => askPorts p s fun a t => (next a).run t

/-- The sequence that presents the requests of a list one after the other, whatever the responses (R37). -/
def HostProgram.ofList : List Request → HostProgram
  | [] => .done
  | r :: rs => .ask r fun _ => ofList rs

/-- The pseudo-operation `CONVERTHEX.f "t"` (R57, R87): PARSEHEX.f, then DECOMPOSE.f of the pattern; on the error the
sequence ends. -/
def convertHex (f : Format) (t : Text) : HostProgram :=
  .ask (.parseHex f t) fun
    | .parsed (.ok b) => .ask (.decompose f b) fun _ => .done
    | _ => .done

end Sys2Proof.Machine
end

