-- ==== Sys2Proof/Safety.lean ====
section
/-! DEFINITION. What claims about a run may assume and what a good state is. -/

namespace Sys2Proof.Machine

/-- Launch premise 1 of R126: the request word at the inputs names a format. -/
def State.launchable (s : State) : Bool := (decode (fetchWord s)).wellFormed

/-- A step that is answered: neither refused nor stopped (R124: "A refused request is not a finished run"). -/
def Answered (s : State) : Prop := ∃ t, step s = .next t

/-- The ports carry the pattern operand `b` of DECOMPOSE.f (R23): nothing is assumed of the bits above it (premise 3 of
R126). -/
def presentsPattern (f : Format) (b : Nat) (p : InPorts) : Prop :=
  b < 2 ^ f.totalBits ∧ p.bitsIn.toNat % 2 ^ f.totalBits = b

/-- The ports carry the text operand `t` of PARSEHEX (R23): nothing is assumed of the entries after it. -/
def presentsText (t : Text) (p : InPorts) : Prop := p.textLen = t.length ∧ t <+: p.text

/-- The response the host reads when it presents a request, if the request is answered. -/
def State.ask (r : Request) (s : State) : Option Response :=
  match step (s.drive (present r s.inp)) with
  | .next t => t.response
  | .fault _ => none
  | .refused _ => none

/-- The responses of a host sequence, and whether it finished. -/
def HostRun.responses : HostRun → Bool × List Response
  | .finished _ rs => (true, rs)
  | .refused _ rs => (false, rs)

/-- A response the block can give at a format (R12): the fields of some pattern of the format, a pattern of the format,
or the error. -/
def possible (f : Format) : Response → Prop
  | .fields d => ∃ b, b < 2 ^ f.totalBits ∧ d = decompose f b
  | .parsed (.ok b) => b < 2 ^ f.totalBits
  | .parsed (.err .malformedHex) => True

/-- A host sequence presents only what the host may present (R12, R123), whatever response the block can give along
the way: abstract requests in range, and raw ports of the instance's size with a legal request word. -/
def HostProgram.wellFormed : HostProgram → Prop
  | .done => True
  | .ask r next => r.wellFormed = true ∧ ∀ a, possible r.format a → (next a).wellFormed
  | .drive p next =>
    p.wellFormed = true ∧ ∃ f, (decode p.cmd).format = some f ∧ ∀ a, possible f a → (next a).wellFormed

/-- The output ports show a response at a format (R24, R25): every field can be read back from its port without loss,
`sig` as the numerator of `mantissaFraction` over `2^mantissaBits`. Nothing is said of a port that carries any value. -/
def shownOn (f : Format) : Response → OutPorts → Prop
  | .fields d, o =>
    o.err = 0#1 ∧ o.sign.toNat = d.sign ∧ o.expRaw.toNat = d.exponentRaw ∧ o.manRaw.toNat = d.mantissaRaw ∧
      o.expUnb.toInt = d.exponentUnbiased ∧ o.cat = catCode d.category ∧
      ∀ q, d.mantissaFraction = some q → (o.sig.toNat : ℚ) / 2 ^ f.mantissaBits = q.toRat
  | .parsed (.ok b), o => o.err = 0#1 ∧ o.bitsOut.toNat = b
  | .parsed (.err .malformedHex), o => o.err = 1#1 ∧ o.bitsOut = 0#64

/-- The invariant of the boundary: the input ports have the instance's size, and the response the host last read is
one the block can give and is shown on the outputs it read. -/
def State.Inv (s : State) : Prop :=
  s.inp.wellFormed = true ∧ ∀ r, s.response = some r → ∃ f, possible f r ∧ shownOn f r s.out

end Sys2Proof.Machine
end

