-- ==== Sys2Proof/Certificates/Slice0/Obligations.lean ====
section
/-! DEFINITION. The statements about the model, for the provers. Rule numbers are those of spec/; a clause that rests on
a decision of the spec's own (spec/92_eei_decisions.md) or on an entry of the assumption log says so. -/

open Sys2Proof Sys2Proof.Machine

/-! ## Encodings -/

/-- The constants of the three formats (R7, R8). Binary64's 11 and 52 are the spec's decision D25, general knowledge:
log entry 9. -/
def Obligations.FormatConstantsMatchTheTable : Prop :=
  (∀ f : Format, f.totalBits = 1 + f.exponentBits + f.mantissaBits ∧ f.bias = 2 ^ (f.exponentBits - 1) - 1 ∧
    4 * f.hexDigits = f.totalBits) ∧
  [Format.binary16, .binary32, .binary64].map
      (fun f => (f.totalBits, f.exponentBits, f.mantissaBits, f.bias, f.hexDigits, allOnes f.exponentBits)) =
    [(16, 5, 10, 15, 4, 0x1F), (32, 8, 23, 127, 8, 0xFF), (64, 11, 52, 1023, 16, 0x7FF)]

/-- The complete operation map of R42: six legal request words and two reserved ones, and nothing else is a request
word. The codes are the spec's decisions D3 to D5; the rejection of a wider number is log entry 10. -/
def Obligations.RequestWordsDecodeToTheirRows : Prop :=
  [0b000#3, 0b001#3, 0b010#3, 0b011#3, 0b100#3, 0b101#3, 0b110#3, 0b111#3].map decode =
    [.decomposeH, .decomposeS, .decomposeD, .reserved011, .parseHexH, .parseHexS, .parseHexD, .reserved111] ∧
  ∀ w : Nat, 8 ≤ w → decodeWord w = .error .widerThanRequestWord

/-- Reading and writing a request word are inverse to each other, on all instructions and on all words (R40 to R42). -/
def Obligations.RequestWordRoundTrip : Prop :=
  (∀ i : Instr, decode (encode i) = i) ∧ ∀ w : RequestWord, encode (decode w) = w

/-- A step runs the instruction whose request word is at the inputs, and adds nothing around it (R16, R122). -/
def Obligations.StepRunsTheRequestWord : Prop :=
  ∀ (i : Instr) (s : State), s.inp.cmd = encode i → step s = exec i s

/-- `withFetchWord` drives `cmd` and nothing else, and the next step runs exactly that row's instruction (the model's
convention, log entries 8 and 10). -/
def Obligations.WithFetchWordRunsTheWord : Prop :=
  ∀ (i : Instr) (s : State) (nbits : Nat),
    decodeTableWord nbits (encode i).toNat = some i ∧
    step (s.withFetchWord nbits (encode i).toNat) = exec i (s.withFetchWord nbits (encode i).toNat) ∧
    s.withFetchWord nbits (encode i).toNat = s.drive { s.inp with cmd := encode i }

/-- The hex digit codes and their values (R48), code by code. ASCII is the spec's decision D13, general knowledge: log
entry 9. -/
def Obligations.HexDigitCodesAreAscii : Prop :=
  (∀ c : CharCode, (isHex c = true ↔
      (0x30 ≤ c.toNat ∧ c.toNat ≤ 0x39) ∨ (0x41 ≤ c.toNat ∧ c.toNat ≤ 0x46) ∨ (0x61 ≤ c.toNat ∧ c.toNat ≤ 0x66))) ∧
  (∀ k : Nat, k ≤ 9 → hexVal (BitVec.ofNat 8 (0x30 + k)) = some k) ∧
  (∀ k : Nat, k ≤ 5 → hexVal (BitVec.ofNat 8 (0x41 + k)) = some (10 + k) ∧
    hexVal (BitVec.ofNat 8 (0x61 + k)) = some (10 + k)) ∧
  ∀ c : CharCode, isPrefixX c = true ↔ c = 0x78#8 ∨ c = 0x58#8

/-! ## DECOMPOSE -/

/-- `decompose(b, f)` as R58 gives it, for every format and every pattern on the ports, in the arithmetic of the rule:
the six fields, and nothing written. -/
def Obligations.DecomposeAnswersTheFields : Prop :=
  ∀ (f : Format) (b : Nat) (s : State), presentsPattern f b s.inp →
    let e := f.exponentBits
    let m := f.mantissaBits
    let er := b / 2 ^ m % 2 ^ e
    let mr := b % 2 ^ m
    ∃ t d, exec (.decompose f) s = .next t ∧ t.inp = s.inp ∧ t.response = some (.fields d) ∧
      d.sign = b / 2 ^ (e + m) % 2 ∧
      d.exponentRaw = er ∧
      d.mantissaRaw = mr ∧
      d.exponentUnbiased = (er : Int) - (f.bias : Int) ∧
      d.category = (if er = 0 ∧ mr = 0 then .zero else if er = 0 ∧ mr ≠ 0 then .subnormal
        else if er = 2 ^ e - 1 then .infinityOrNaN else .normal) ∧
      (d.category = .zero ∨ d.category = .subnormal → d.mantissaFraction.map Fraction.toRat = some ((mr : ℚ) / 2 ^ m)) ∧
      (d.category = .normal → d.mantissaFraction.map Fraction.toRat = some (1 + (mr : ℚ) / 2 ^ m)) ∧
      (d.category = .infinityOrNaN → d.mantissaFraction = none)

/-- DECOMPOSE.H on the ports, for all 2^64 values of `bits_in` (R68, R24, R64, R67). The port widths and codes are the
spec's decisions D6 to D9; `sig` for InfinityOrNaN and `bits_out` carry any value (R26), so nothing is said of them. -/
def Obligations.DecomposeHDrivesThePorts : Prop :=
  ∀ s : State,
    let b := s.inp.bitsIn
    let er := b.extractLsb' 10 5
    let mr := b.extractLsb' 0 10
    ∃ t, exec .decomposeH s = .next t ∧ t.inp = s.inp ∧ t.out.err = 0#1 ∧
      t.out.sign = b.extractLsb' 15 1 ∧
      t.out.expRaw = er.setWidth 11 ∧
      t.out.manRaw = mr.setWidth 52 ∧
      t.out.expUnb = er.setWidth 12 - 15#12 ∧
      t.out.cat = (if er = 0#5 ∧ mr = 0#10 then 0b00#2 else if er = 0#5 then 0b01#2
        else if er = 31#5 then 0b11#2 else 0b10#2) ∧
      (er = 0#5 → t.out.sig = mr.setWidth 53) ∧
      (er ≠ 0#5 → er ≠ 31#5 → t.out.sig = (1#1 ++ mr).setWidth 53)

/-- DECOMPOSE.S on the ports, for all 2^64 values of `bits_in` (R69, R24, R64, R67); see DecomposeHDrivesThePorts. -/
def Obligations.DecomposeSDrivesThePorts : Prop :=
  ∀ s : State,
    let b := s.inp.bitsIn
    let er := b.extractLsb' 23 8
    let mr := b.extractLsb' 0 23
    ∃ t, exec .decomposeS s = .next t ∧ t.inp = s.inp ∧ t.out.err = 0#1 ∧
      t.out.sign = b.extractLsb' 31 1 ∧
      t.out.expRaw = er.setWidth 11 ∧
      t.out.manRaw = mr.setWidth 52 ∧
      t.out.expUnb = er.setWidth 12 - 127#12 ∧
      t.out.cat = (if er = 0#8 ∧ mr = 0#23 then 0b00#2 else if er = 0#8 then 0b01#2
        else if er = 255#8 then 0b11#2 else 0b10#2) ∧
      (er = 0#8 → t.out.sig = mr.setWidth 53) ∧
      (er ≠ 0#8 → er ≠ 255#8 → t.out.sig = (1#1 ++ mr).setWidth 53)

/-- DECOMPOSE.D on the ports, for all 2^64 values of `bits_in` (R70, R24, R64, R67); see DecomposeHDrivesThePorts. The
11 / 52 split is decision D25: log entry 9. -/
def Obligations.DecomposeDDrivesThePorts : Prop :=
  ∀ s : State,
    let b := s.inp.bitsIn
    let er := b.extractLsb' 52 11
    let mr := b.extractLsb' 0 52
    ∃ t, exec .decomposeD s = .next t ∧ t.inp = s.inp ∧ t.out.err = 0#1 ∧
      t.out.sign = b.extractLsb' 63 1 ∧
      t.out.expRaw = er ∧
      t.out.manRaw = mr ∧
      t.out.expUnb = er.setWidth 12 - 1023#12 ∧
      t.out.cat = (if er = 0#11 ∧ mr = 0#52 then 0b00#2 else if er = 0#11 then 0b01#2
        else if er = 2047#11 then 0b11#2 else 0b10#2) ∧
      (er = 0#11 → t.out.sig = mr.setWidth 53) ∧
      (er ≠ 0#11 → er ≠ 2047#11 → t.out.sig = 1#1 ++ mr)

/-- DECOMPOSE raises nothing, for any operand; its `err` is 0 (R103). -/
def Obligations.DecomposeNeverErrs : Prop :=
  ∀ (f : Format) (s : State), ∃ t d,
    exec (.decompose f) s = .next t ∧ t.out.err = 0#1 ∧ t.response = some (.fields d)

/-- The category is the one R63 names for the two fields, and the sign plays no part in it. -/
def Obligations.CategoryIsDeterminedByTheFields : Prop :=
  ∀ (f : Format) (b : Nat) (s : State), presentsPattern f b s.inp →
    ∃ t d, exec (.decompose f) s = .next t ∧ t.response = some (.fields d) ∧
      (d.exponentRaw = 0 ∧ d.mantissaRaw = 0 → d.category = .zero) ∧
      (d.exponentRaw = 0 ∧ d.mantissaRaw ≠ 0 → d.category = .subnormal) ∧
      (d.exponentRaw = 2 ^ f.exponentBits - 1 → d.category = .infinityOrNaN) ∧
      (d.exponentRaw ≠ 0 ∧ d.exponentRaw ≠ 2 ^ f.exponentBits - 1 → d.category = .normal) ∧
      ∀ b' : Nat, b' % 2 ^ (f.totalBits - 1) = b % 2 ^ (f.totalBits - 1) → (decompose f b').category = d.category

/-- The four categories partition the patterns (R65): the predicate of the category that is answered holds of the
fields, and no other category's does. -/
def Obligations.CategoriesPartitionThePatterns : Prop :=
  ∀ (f : Format) (b : Nat), b < 2 ^ f.totalBits →
    let d := decompose f b
    let holds : Category → Prop := fun
      | .zero => d.exponentRaw = 0 ∧ d.mantissaRaw = 0
      | .subnormal => d.exponentRaw = 0 ∧ 1 ≤ d.mantissaRaw ∧ d.mantissaRaw ≤ 2 ^ f.mantissaBits - 1
      | .normal => 1 ≤ d.exponentRaw ∧ d.exponentRaw ≤ 2 ^ f.exponentBits - 2
      | .infinityOrNaN => d.exponentRaw = 2 ^ f.exponentBits - 1
    ∀ c : Category, holds c ↔ c = d.category

/-- How many patterns of each format have each category (R74). -/
def Obligations.CategoryCounts : Prop :=
  ∀ f : Format,
    let count : Category → Nat := fun c =>
      ((Finset.range (2 ^ f.totalBits)).filter fun b => (decompose f b).category = c).card
    count .zero = 2 ∧
    count .subnormal = 2 * (2 ^ f.mantissaBits - 1) ∧
    count .infinityOrNaN = 2 * 2 ^ f.mantissaBits ∧
    count .normal = 2 * (2 ^ f.exponentBits - 2) * 2 ^ f.mantissaBits

/-- The three raw fields tile the pattern: they reassemble to it, so two patterns with equal raw fields are equal, and
any three values in range are the fields of the reassembled pattern (R52, R73 a and b). -/
def Obligations.FieldsReassembleThePattern : Prop :=
  ∀ f : Format,
    let e := f.exponentBits
    let m := f.mantissaBits
    (∀ b : Nat, b < 2 ^ f.totalBits →
      (decompose f b).sign * 2 ^ (e + m) + (decompose f b).exponentRaw * 2 ^ m + (decompose f b).mantissaRaw = b) ∧
    (∀ b b' : Nat, b < 2 ^ f.totalBits → b' < 2 ^ f.totalBits → (decompose f b).sign = (decompose f b').sign →
      (decompose f b).exponentRaw = (decompose f b').exponentRaw →
      (decompose f b).mantissaRaw = (decompose f b').mantissaRaw → b = b') ∧
    ∀ sg er mr : Nat, sg < 2 → er < 2 ^ e → mr < 2 ^ m →
      let b := sg * 2 ^ (e + m) + er * 2 ^ m + mr
      b < 2 ^ f.totalBits ∧ (decompose f b).sign = sg ∧ (decompose f b).exponentRaw = er ∧
        (decompose f b).mantissaRaw = mr

/-- Sign symmetry (R73 c): the pattern with its top bit flipped has the other sign and every other field equal. -/
def Obligations.SignSymmetry : Prop :=
  ∀ (f : Format) (b : Nat), b < 2 ^ f.totalBits →
    let d := decompose f b
    decompose f (b ^^^ 2 ^ (f.totalBits - 1)) = { d with sign := 1 - d.sign }

/-- The bits of `bits_in` above the pattern, the text ports and everything read before change nothing of a DECOMPOSE
response, in the record or on its ports (R73 d, R32). That the upper bits are ignored is the spec's decision D7. -/
def Obligations.DecomposeReadsOnlyThePattern : Prop :=
  ∀ (f : Format) (s s' : State),
    s.inp.bitsIn.toNat % 2 ^ f.totalBits = s'.inp.bitsIn.toNat % 2 ^ f.totalBits →
    ∃ t t' d, exec (.decompose f) s = .next t ∧ exec (.decompose f) s' = .next t' ∧
      t.response = some (.fields d) ∧ t'.response = some (.fields d) ∧
      t.out.err = t'.out.err ∧ t.out.sign = t'.out.sign ∧ t.out.expRaw = t'.out.expRaw ∧
      t.out.manRaw = t'.out.manRaw ∧ t.out.expUnb = t'.out.expUnb ∧ t.out.cat = t'.out.cat ∧
      (d.category ≠ .infinityOrNaN → t.out.sig = t'.out.sig)

/-- `exponentUnbiased` is exact and in range in every category, and its 12-bit port reads back the same integer
(R62, R75). That it is produced in every category is the spec's decision D11, the port width D8. -/
def Obligations.ExponentUnbiasedIsExact : Prop :=
  ∀ (f : Format) (s : State), ∃ t d,
    exec (.decompose f) s = .next t ∧ t.response = some (.fields d) ∧
    d.exponentUnbiased = (d.exponentRaw : Int) - (f.bias : Int) ∧
    t.out.expUnb.toInt = d.exponentUnbiased ∧
    -(f.bias : Int) ≤ d.exponentUnbiased ∧ d.exponentUnbiased ≤ (f.bias : Int) + 1 ∧
    (d.category = .zero ∨ d.category = .subnormal → d.exponentUnbiased = -(f.bias : Int)) ∧
    (d.category = .infinityOrNaN → d.exponentUnbiased = (f.bias : Int) + 1) ∧
    (d.category = .normal → 1 - (f.bias : Int) ≤ d.exponentUnbiased ∧ d.exponentUnbiased ≤ (f.bias : Int))

/-- The significand port (R66, R67): `sig / 2^mantissaBits` is `mantissaFraction`, in `[0, 1)` for Zero and Subnormal and
in `[1, 2)` for Normal, and bit `mantissaBits` of `sig` is the implicit leading bit. The port is the spec's decision D9. -/
def Obligations.SignificandPortCarriesTheFraction : Prop :=
  ∀ (f : Format) (s : State), ∃ t d,
    exec (.decompose f) s = .next t ∧ t.response = some (.fields d) ∧
    (d.category = .infinityOrNaN ↔ d.mantissaFraction = none) ∧
    ∀ q, d.mantissaFraction = some q →
      (t.out.sig.toNat : ℚ) / 2 ^ f.mantissaBits = q.toRat ∧
      t.out.sig.getLsbD f.mantissaBits = decide (d.category = .normal) ∧
      (d.category = .zero → q.toRat = 0) ∧
      (d.category = .subnormal → 0 < q.toRat ∧ q.toRat < 1) ∧
      (d.category = .normal → 1 ≤ q.toRat ∧ q.toRat < 2)

/-! ## The value a pattern denotes -/

/-- The range of the values of each category, with the extreme values the rule names attained (R71). `Val` is the spec's
own function, decision D16. -/
def Obligations.ValueRangesAndExtremes : Prop :=
  ∀ f : Format,
    let m := f.mantissaBits
    let tiny : ℚ := 2 ^ (1 - (f.bias : Int) - (m : Int))
    let least : ℚ := 2 ^ (1 - (f.bias : Int))
    let greatest : ℚ := (2 - 2 ^ (-(m : Int))) * 2 ^ f.bias
    val f (decompose f 1) = some tiny ∧
    val f (decompose f (2 ^ m)) = some least ∧
    val f (decompose f ((2 ^ f.exponentBits - 1) * 2 ^ m - 1)) = some greatest ∧
    ∀ b : Nat, b < 2 ^ f.totalBits →
      let d := decompose f b
      (d.category = .zero → val f d = some 0) ∧
      (d.category = .infinityOrNaN → val f d = none) ∧
      (d.category = .subnormal → ∃ v : ℚ, val f d = some ((-1) ^ d.sign * v) ∧ tiny ≤ v ∧ v < least) ∧
      (d.category = .normal → ∃ v : ℚ, val f d = some ((-1) ^ d.sign * v) ∧ least ≤ v ∧ v ≤ greatest)

/-- Among the patterns with sign 0 that are not InfinityOrNaN, the order of the patterns as integers is the order of the
values they denote (test T9 of spec/95_test_vectors.md, a consequence of R71). -/
def Obligations.ValueOrderFollowsPatternOrder : Prop :=
  ∀ (f : Format) (b b' : Nat), b < 2 ^ (f.totalBits - 1) → b' < 2 ^ (f.totalBits - 1) →
    (decompose f b).category ≠ .infinityOrNaN → (decompose f b').category ≠ .infinityOrNaN →
    ∃ v v' : ℚ, val f (decompose f b) = some v ∧ val f (decompose f b') = some v' ∧ (b < b' ↔ v < v')

/-! ## PARSEHEX -/

/-- The prefix, the length check and the digit check, which are all the causes of MalformedHex, and the value of a text
that passes both (R79, R80, R101). The codes of the prefix are those of R78; the value is the accumulation of R76, R77
and R30, first digit most significant. That digit order and the ASCII codes are the spec's decisions D26 and D13,
general knowledge: log entry 9. -/
def Obligations.ParseHexChecksLengthAndDigits : Prop :=
  ∀ (f : Format) (t : Text) (s : State), presentsText t s.inp →
    let n := match f with
      | .binary16 => 4
      | .binary32 => 8
      | .binary64 => 16
    let digits := if 2 ≤ t.length ∧ t[0]? = some 0x30#8 ∧ (t[1]? = some 0x78#8 ∨ t[1]? = some 0x58#8)
      then t.drop 2 else t
    ∃ u, exec (.parseHex f) s = .next u ∧ u.inp = s.inp ∧
      (digits.length ≠ n → u.response = some (.parsed (.err .malformedHex))) ∧
      ((∃ c ∈ digits, isHex c = false) → u.response = some (.parsed (.err .malformedHex))) ∧
      (digits.length = n → (∀ c ∈ digits, isHex c = true) → ∃ vs : List Nat, digits.map hexVal = vs.map some ∧
        u.response = some (.parsed (.ok (vs.foldl (fun b v => b * 16 + v) 0))))

/-- The accepted spellings, position by position (R49), and their assembly most significant digit first, as a sum and
digit by digit (R50). The digit order is the spec's decision D26: log entry 9. -/
def Obligations.AcceptedTextsAreAssembledBySignificance : Prop :=
  ∀ (f : Format) (t : Text) (s : State), presentsText t s.inp →
    let n := f.hexDigits
    let digitsFrom := fun p : Nat => ∀ i, p ≤ i → i < p + n → ∃ c, t[i]? = some c ∧ isHex c = true
    let unprefixed := t.length = n ∧ digitsFrom 0
    let prefixed := t.length = n + 2 ∧ t[0]? = some 0x30#8 ∧ (∃ c, t[1]? = some c ∧ isPrefixX c = true) ∧ digitsFrom 2
    let assembled := fun (p b : Nat) => ∃ v : Nat → Nat,
      (∀ k, k < n → (t[p + k]?).bind hexVal = some (v k)) ∧
      b = ∑ k ∈ Finset.range n, v k * 16 ^ (n - 1 - k) ∧
      ∀ k, k < n → b / 16 ^ (n - 1 - k) % 16 = v k
    ∃ u, exec (.parseHex f) s = .next u ∧ u.inp = s.inp ∧
      (unprefixed → ∃ b, u.response = some (.parsed (.ok b)) ∧ b < 2 ^ f.totalBits ∧ assembled 0 b) ∧
      (prefixed → ∃ b, u.response = some (.parsed (.ok b)) ∧ b < 2 ^ f.totalBits ∧ assembled 2 b) ∧
      (¬ unprefixed → ¬ prefixed → u.response = some (.parsed (.err .malformedHex)))

/-- PARSEHEX on the ports, from every state (R25, R82 to R84): `Ok(b)` with `err = 0` and `bits_out = zext_64(b)`, or the
error with `err = 1` and `bits_out = 0`. The error's code and its zero are the spec's decision D14. -/
def Obligations.ParseHexDrivesThePorts : Prop :=
  ∀ (f : Format) (s : State), ∃ t, exec (.parseHex f) s = .next t ∧ t.inp = s.inp ∧
    ((∃ b, t.response = some (.parsed (.ok b)) ∧ t.out.err = 0#1 ∧ t.out.bitsOut.toNat = b ∧
        t.out.bitsOut.toNat / 2 ^ f.totalBits = 0) ∨
      (t.response = some (.parsed (.err .malformedHex)) ∧ t.out.err = 1#1 ∧ t.out.bitsOut = 0#64))

/-- PARSEHEX gives exactly one of `Ok(b)` and `Err(MalformedHex)` for every format and every text, on any ports; the one
request it gives no response to is the one with the reserved `fmt` code, whatever the text (R85). -/
def Obligations.ParseHexIsTotal : Prop :=
  (∀ (f : Format) (s : State), ∃ t, exec (.parseHex f) s = .next t ∧
    ((∃ b, b < 2 ^ f.totalBits ∧ t.response = some (.parsed (.ok b))) ∨
      t.response = some (.parsed (.err .malformedHex)))) ∧
  ∀ s : State, s.inp.cmd = 0b111#3 → step s = .refused .reservedFormat

/-- A text longer than 18 characters is malformed for every format (R88), and so is a `text_len` above the number of
entries of the text port, TEXT_MAX, whatever the entries hold (R47). TEXT_MAX and the text port are the spec's decision
D12: log entry 5. -/
def Obligations.LongTextsAreMalformed : Prop :=
  ∀ (f : Format) (s : State), 18 < s.inp.textLen ∨ s.inp.text.length < s.inp.textLen →
    ∃ t, exec (.parseHex f) s = .next t ∧ t.response = some (.parsed (.err .malformedHex)) ∧ t.out.err = 1#1

/-- The entries of the text port at index `text_len` and above, `bits_in` and everything read before change nothing of a
PARSEHEX response, in the record or on its ports (R23, R47). -/
def Obligations.ParseHexReadsOnlyTheText : Prop :=
  ∀ (f : Format) (t : Text) (s s' : State), presentsText t s.inp → presentsText t s'.inp →
    ∃ u u' r, exec (.parseHex f) s = .next u ∧ exec (.parseHex f) s' = .next u' ∧
      u.response = some (.parsed r) ∧ u'.response = some (.parsed r) ∧
      u.out.err = u'.out.err ∧ u.out.bitsOut = u'.out.bitsOut

/-- The prefix changes nothing of the result, for every text of `n` hex digits (R56). -/
def Obligations.PrefixChangesNothing : Prop :=
  ∀ (f : Format) (digits : Text) (pre : Prefix) (s : State),
    digits.length = f.hexDigits → (∀ c ∈ digits, isHex c = true) →
    ∃ b, s.ask (.parseHex f digits) = some (.parsed (.ok b)) ∧
      s.ask (.parseHex f (pre.chars ++ digits)) = some (.parsed (.ok b))

/-- Reading and writing a text agree in both directions, for every pattern, prefix and choice of letter case: the texts
that PARSEHEX reads as `b` are exactly the spellings of `b` (R49, R50, R86). -/
def Obligations.SpellingsAreExactlyTheAcceptedTexts : Prop :=
  ∀ (f : Format) (t : Text) (b : Nat) (s : State),
    s.ask (.parseHex f t) = some (.parsed (.ok b)) ↔
      b < 2 ^ f.totalBits ∧ ∃ (pre : Prefix) (upper : Nat → Bool), t = spell f pre upper b

/-- A pattern whose digits include `L` letters has `3 × 2^L` accepted spellings (R86). -/
def Obligations.SpellingCountOfAPattern : Prop :=
  ∀ (f : Format) (b : Nat) (s : State), b < 2 ^ f.totalBits →
    let letters := ((Finset.range f.hexDigits).filter fun k => 10 ≤ b / 16 ^ k % 16).card
    Set.ncard { t : Text | s.ask (.parseHex f t) = some (.parsed (.ok b)) } = 3 * 2 ^ letters

/-- `3 × 22^n` texts are accepted for a format (R86). -/
def Obligations.AcceptedTextCount : Prop :=
  ∀ (f : Format) (s : State),
    Set.ncard { t : Text | ∃ b, s.ask (.parseHex f t) = some (.parsed (.ok b)) } = 3 * 22 ^ f.hexDigits

/-! ## The error and the refusal -/

/-- The error records nothing besides its tag: any two PARSEHEX requests, of any formats and texts, that are not answered
with a pattern have the same response, the bare tag (R102). -/
def Obligations.ErrorRecordsNothing : Prop :=
  ∀ (f f' : Format) (s s' t t' : State), exec (.parseHex f) s = .next t → exec (.parseHex f') s' = .next t' →
    (¬ ∃ b, t.response = some (.parsed (.ok b))) → (¬ ∃ b, t'.response = some (.parsed (.ok b))) →
    t.response = some (.parsed (.err .malformedHex)) ∧ t'.response = t.response

/-- `raise MalformedHex` ends the operation with its response, and that is all: nothing but the outputs and the response
changes, and presenting the same request again gives the same error (R107, R109). The delivery is decision D17. That
the repeated request leaves the whole state as it is, the ports that carry any value (R26) included, is the model's
reading of R14: log entry 3. -/
def Obligations.MalformedHexIsOnlyAResponse : Prop :=
  ∀ (f : Format) (t : Text) (s : State), presentsText t s.inp → parseHex f t = .err .malformedHex →
    ∃ u, exec (.parseHex f) s = .next u ∧ u.inp = s.inp ∧ u.response = some (.parsed (.err .malformedHex)) ∧
      u.out.err = 1#1 ∧ exec (.parseHex f) u = .next u

/-- The two reserved request words are refused whatever the operands are (R53, R106). The code is decision D4. -/
def Obligations.ReservedWordsAreRefused : Prop :=
  ∀ s : State, exec .reserved011 s = .refused .reservedFormat ∧ exec .reserved111 s = .refused .reservedFormat

/-- The step relation (R122): a request with a legal `fmt` is answered, and one with `fmt = 0b11`, whose word is the only
thing looked at, is refused; there is no other outcome. -/
def Obligations.StepAnswersExactlyTheLegalWords : Prop :=
  ∀ s : State,
    (s.inp.cmd.extractLsb' 0 2 ≠ 0b11#2 ↔ ∃ t r, step s = .next t ∧ t.response = some r) ∧
    (s.inp.cmd.extractLsb' 0 2 = 0b11#2 ↔ ∃ r, step s = .refused r) ∧
    ∀ r, step s = .refused r → r = .reservedFormat

/-! ## The boundary: frames, invariants, independence -/

/-- The ignored inputs influence no output: the bits of `bits_in` above the pattern and the text operand under DECOMPOSE
(R32, R73 d, U6, U7), `bits_in` and the text entries at `text_len` and above under PARSEHEX (U7). Every output port
carries the same whatever stands there. The ports are the spec's decisions D7 and D12; that R32 binds the ports that carry
any value (R26) as well is log entry 3. -/
def Obligations.IgnoredInputsInfluenceNoOutput : Prop :=
  ∀ (f : Format) (s s' : State),
    (s.inp.bitsIn.toNat % 2 ^ f.totalBits = s'.inp.bitsIn.toNat % 2 ^ f.totalBits →
      ∃ t t', exec (.decompose f) s = .next t ∧ exec (.decompose f) s' = .next t' ∧
        t.response = t'.response ∧ t.out = t'.out) ∧
    (s.inp.textLen = s'.inp.textLen → (∀ k, k < s.inp.textLen → s.inp.text[k]? = s'.inp.text[k]?) →
      ∃ t t', exec (.parseHex f) s = .next t ∧ exec (.parseHex f) s' = .next t' ∧
        t.response = t'.response ∧ t.out = t'.out)

/-- Frame of every request: a step changes nothing the host drives (R14, R35); `exec` reads neither the outputs nor the
response of an earlier request. That the whole next state is the same, the ports that carry any value (R26) included, is
the model's reading of R14: log entry 3. -/
def Obligations.NoRequestChangesTheInputs : Prop :=
  ∀ (i : Instr) (s t : State), exec i s = .next t →
    t.inp = s.inp ∧ ∀ (out : OutPorts) (r : Option Response), exec i { s with out := out, response := r } = .next t

/-- No response depends on an earlier request (R20): two states with the same inputs step alike, whatever was answered
before. That the ports that carry any value (R26) are alike too is the model's reading of R14: log entry 3. -/
def Obligations.NoResponseDependsOnAnEarlierRequest : Prop :=
  ∀ s s' : State, s.inp = s'.inp →
    (∀ t, step s = .next t ↔ step s' = .next t) ∧ ∀ r, step s = .refused r ↔ step s' = .refused r

/-- Every request is idempotent (R35): answered again, it leaves the answered state as it is. That the
ports that carry any value (R26) stay as they are too is the model's reading of R14: log entry 3. -/
def Obligations.RequestsAreIdempotent : Prop :=
  ∀ s t : State, step s = .next t → step t = .next t

/-- Presenting an abstract request on the ports, whatever they held, and stepping gives the response `F` of that request
(R23 to R25, R122). -/
def Obligations.PresentedRequestIsAnswered : Prop :=
  ∀ (r : Request) (s : State), r.wellFormed = true →
    s.ask r = some (answer r)

/-- For any list of requests, presented from any state, the response to each request is `F` of that request (R37). How
the host presents a request after another is the model's choice, log entry 13: what the request does not name stays as
last driven, where R23 lets the host drive anything. -/
def Obligations.EachResponseDependsOnItsRequestAlone : Prop :=
  ∀ (qs : List Request) (s : State), (∀ q ∈ qs, q.wellFormed = true) →
    ∃ t, (HostProgram.ofList qs).run s = .finished t (qs.map answer)

/-- A host sequence, one that chooses its requests by the responses and may drive the ports raw, reads the same responses
and is refused at the same place, whatever state it starts from (R20, R37, R109; test T8). -/
def Obligations.HostSequencesDoNotSeeTheStartState : Prop :=
  ∀ (prog : HostProgram) (s s' : State), (prog.run s).responses = (prog.run s').responses

/-- CONVERTHEX (R57, R87): the two responses of the pipeline for an accepted text, the error alone for a malformed one. -/
def Obligations.ConvertHexParsesThenDecomposes : Prop :=
  ∀ (f : Format) (t : Text) (s : State),
    (∀ b, parseHex f t = .ok b → ((convertHex f t).run s).responses =
      (true, [.parsed (.ok b), .fields (decompose f b)])) ∧
    (parseHex f t = .err .malformedHex → ((convertHex f t).run s).responses = (true, [.parsed (.err .malformedHex)]))

/-- At reset nothing has been answered, the outputs are what the first step drives, and the invariant holds (R27, R114,
R115; the input values are log entry 2, the empty response log entry 7; that `bits_out`, which carries any value under
DECOMPOSE, is the same too is log entry 3). -/
def Obligations.ResetMeetsTheInvariant : Prop :=
  State.reset.Inv ∧ State.reset.response = none ∧
    ∃ t, step State.reset = .next t ∧ t.out = State.reset.out ∧ t.inp = State.reset.inp

/-- Every step keeps the invariant of the boundary: whatever was read before, the response a step gives is one the block
can give at some format, and every field of it can be read back from its port (R12, R24, R25). -/
def Obligations.StepKeepsTheInvariant : Prop :=
  ∀ s t : State, s.Inv → step s = .next t → t.Inv

/-- Every host sequence of requests the host may present finishes, in a state that meets the invariant (R123, R124). -/
def Obligations.HostSequencesFinishInTheInvariant : Prop :=
  ∀ (prog : HostProgram) (s : State), s.Inv → prog.wellFormed →
    ∃ t rs, prog.run s = .finished t rs ∧ t.Inv
end

