-- ==== Sys2Proof/Laws/Operands.lean ====
section
/-! SUPPORT. The operands on the ports, and the hex digits. -/

namespace Sys2Proof.Machine

theorem firstEntries_eq (n : Nat) (l : List CharCode) :
    firstEntries n l = if n ≤ l.length then some (l.take n) else none := by
  induction n generalizing l with
  | zero => simp [firstEntries]
  | succ n ih =>
    cases l with
    | nil => simp [firstEntries]
    | cons c cs =>
      simp only [firstEntries, ih, List.length_cons, List.take_succ_cons]
      split <;> split <;> simp <;> omega

/-- The text the ports carry is the text operand (R23, R47). -/
theorem textOperand_of_presentsText {t : Text} {p : InPorts} (h : presentsText t p) : textOperand p = some t := by
  obtain ⟨hl, r, hr⟩ := h
  simp [textOperand, firstEntries_eq, hl, ← hr]

theorem textOperand_length {t : Text} {p : InPorts} (h : textOperand p = some t) : t.length = p.textLen := by
  simp only [textOperand, firstEntries_eq] at h
  split at h <;> cases h
  simp [List.length_take]; omega

theorem patternOperand_lt (f : Format) (p : InPorts) : patternOperand f p < 2 ^ f.totalBits :=
  Nat.mod_lt _ (Nat.two_pow_pos _)

/-- DECOMPOSE reads the pattern operand and nothing else of the ports (R32). -/
theorem readByDecompose_congr {f : Format} {p p' : InPorts} (h : patternOperand f p = patternOperand f p') :
    readByDecompose f p = readByDecompose f p' := by simp [readByDecompose, h]

/-- PARSEHEX reads `text_len` and the entries below it, and nothing else of the ports (U7). -/
theorem readByParseHex_congr {f : Format} {p p' : InPorts} (hl : p.textLen = p'.textLen)
    (ht : p.text.take p.textLen = p'.text.take p'.textLen) : readByParseHex f p = readByParseHex f p' := by
  rw [readByParseHex, ht, hl]; rfl

/-- The text operand is taken from what PARSEHEX reads. -/
theorem textOperand_readByParseHex (f : Format) (p : InPorts) : textOperand (readByParseHex f p) = textOperand p := by
  simp only [textOperand, readByParseHex, firstEntries_eq, List.length_take, le_min_iff, le_refl, true_and,
    List.take_take, min_self]

theorem hexVal_lt {c : CharCode} {v : Nat} (h : hexVal c = some v) : v < 16 := by
  unfold hexVal at h
  split_ifs at h <;> cases h <;> omega

theorem hexVal_hexChar : ∀ (u : Bool) (v : Fin 16), hexVal (hexChar u v) = some v.val := by decide

/-- The digits of a value are its upper-case and lower-case characters, and no other code. -/
theorem hexVal_eq_some_iff : ∀ (c : CharCode) (v : Fin 16),
    hexVal c = some v.val ↔ c = hexChar true v ∨ c = hexChar false v := by decide +kernel

end Sys2Proof.Machine
end

