-- ==== Sys2Proof/Laws/Codec.lean ====
section
/-! SUPPORT. `decompose` and `parseHex` in plain arithmetic. -/

namespace Sys2Proof

theorem Format.totalBits_eq (f : Format) : f.totalBits = 1 + f.exponentBits + f.mantissaBits := by cases f <;> rfl
theorem Format.exponentBits_pos (f : Format) : 5 ≤ f.exponentBits := by cases f <;> decide
theorem Format.bias_eq (f : Format) : 2 * f.bias + 2 = 2 ^ f.exponentBits := by cases f <;> decide
theorem Format.hexDigits_eq (f : Format) : 4 * f.hexDigits = f.totalBits := by cases f <;> rfl
theorem Format.sixteen_pow_hexDigits (f : Format) : 16 ^ f.hexDigits = 2 ^ f.totalBits := by
  rw [← f.hexDigits_eq, pow_mul]; rfl

namespace Machine

theorem signOf_eq (f : Format) (b : Nat) : signOf f b = b / 2 ^ (f.exponentBits + f.mantissaBits) % 2 := by
  simp [signOf, Nat.shiftRight_eq_div_pow, Nat.and_one_is_mod]

theorem exponentRawOf_eq (f : Format) (b : Nat) :
    exponentRawOf f b = b / 2 ^ f.mantissaBits % 2 ^ f.exponentBits := by
  simp [exponentRawOf, allOnes, Nat.shiftRight_eq_div_pow, Nat.and_two_pow_sub_one_eq_mod]

theorem mantissaRawOf_eq (f : Format) (b : Nat) : mantissaRawOf f b = b % 2 ^ f.mantissaBits := by
  simp [mantissaRawOf, allOnes, Nat.and_two_pow_sub_one_eq_mod]

theorem signOf_lt (f : Format) (b : Nat) : signOf f b < 2 := by
  rw [signOf_eq]; omega

theorem exponentRawOf_lt (f : Format) (b : Nat) : exponentRawOf f b < 2 ^ f.exponentBits := by
  rw [exponentRawOf_eq]; exact Nat.mod_lt _ (Nat.two_pow_pos _)

theorem mantissaRawOf_lt (f : Format) (b : Nat) : mantissaRawOf f b < 2 ^ f.mantissaBits := by
  rw [mantissaRawOf_eq]; exact Nat.mod_lt _ (Nat.two_pow_pos _)

@[simp] theorem decompose_sign (f : Format) (b : Nat) : (decompose f b).sign = signOf f b := rfl
@[simp] theorem decompose_exponentRaw (f : Format) (b : Nat) : (decompose f b).exponentRaw = exponentRawOf f b := rfl
@[simp] theorem decompose_mantissaRaw (f : Format) (b : Nat) : (decompose f b).mantissaRaw = mantissaRawOf f b := rfl
@[simp] theorem decompose_exponentUnbiased (f : Format) (b : Nat) :
    (decompose f b).exponentUnbiased = (exponentRawOf f b : Int) - (f.bias : Int) := rfl
@[simp] theorem decompose_category (f : Format) (b : Nat) :
    (decompose f b).category = categorize f (exponentRawOf f b) (mantissaRawOf f b) := rfl
@[simp] theorem decompose_mantissaFraction (f : Format) (b : Nat) :
    (decompose f b).mantissaFraction =
      mantissaFractionOf f (mantissaRawOf f b) (categorize f (exponentRawOf f b) (mantissaRawOf f b)) := rfl

/-- `exponentRaw = 0` and `exponentRaw` all ones exclude each other (R65). -/
theorem allOnes_exponentBits_pos (f : Format) : 31 ≤ allOnes f.exponentBits := by cases f <;> decide

theorem categorize_eq_zero {f : Format} {er mr : Nat} : categorize f er mr = .zero ↔ er = 0 ∧ mr = 0 := by
  unfold categorize; split_ifs <;> simp_all

theorem categorize_eq_subnormal {f : Format} {er mr : Nat} : categorize f er mr = .subnormal ↔ er = 0 ∧ mr ≠ 0 := by
  unfold categorize; split_ifs <;> simp_all

theorem categorize_eq_infinityOrNaN {f : Format} {er mr : Nat} :
    categorize f er mr = .infinityOrNaN ↔ er = allOnes f.exponentBits := by
  have := allOnes_exponentBits_pos f
  unfold categorize; split_ifs <;> simp_all <;> omega

theorem categorize_eq_normal {f : Format} {er mr : Nat} :
    categorize f er mr = .normal ↔ er ≠ 0 ∧ er ≠ allOnes f.exponentBits := by
  unfold categorize; split_ifs <;> simp_all

/-- The value of an accumulation: the start shifted by the digits, plus their positional value (R50, R77). -/
theorem accumulate_eq_some_iff {b b' : Nat} {t : Text} :
    accumulate b t = some b' ↔
      ∃ vs : List Nat, t.map hexVal = vs.map some ∧ b' = vs.foldl (fun b v => b * 16 + v) b := by
  induction t generalizing b with
  | nil =>
    constructor
    · rintro ⟨⟩; exact ⟨[], rfl, rfl⟩
    · rintro ⟨vs, h, rfl⟩
      cases vs with
      | nil => rfl
      | cons => simp at h
  | cons c cs ih =>
    cases hc : hexVal c with
    | none =>
      constructor
      · intro h; simp [accumulate, hc] at h
      · rintro ⟨vs, h, -⟩; cases vs <;> simp [hc] at h
    | some v =>
      simp only [accumulate, hc, ih]
      constructor
      · rintro ⟨vs, h, rfl⟩; exact ⟨v :: vs, by simp [hc, h], rfl⟩
      · rintro ⟨vs, h, rfl⟩
        cases vs with
        | nil => simp at h
        | cons w ws =>
          simp only [List.map_cons, hc, List.cons.injEq, Option.some.injEq] at h
          obtain ⟨rfl, h⟩ := h
          exact ⟨ws, h, rfl⟩

/-- An accumulation fails exactly on a character that is no hex digit (R80). -/
theorem accumulate_eq_none_iff {b : Nat} {t : Text} : accumulate b t = none ↔ ∃ c ∈ t, isHex c = false := by
  induction t generalizing b with
  | nil => simp [accumulate]
  | cons c cs ih => cases hc : hexVal c <;> simp [accumulate, hc, isHex, ih]

/-- After `k` digits the value is below `16^k` times the start plus one (R77). -/
theorem accumulate_lt {b b' : Nat} {t : Text} (h : accumulate b t = some b') : b' < (b + 1) * 16 ^ t.length := by
  induction t generalizing b with
  | nil => cases h; simp
  | cons c cs ih =>
    cases hc : hexVal c with
    | none => simp [accumulate, hc] at h
    | some v =>
      have hv := hexVal_lt hc
      simp only [accumulate, hc] at h
      calc b' < (b * 16 + v + 1) * 16 ^ cs.length := ih h
        _ ≤ (b + 1) * 16 * 16 ^ cs.length := Nat.mul_le_mul_right _ (by omega)
        _ = (b + 1) * 16 ^ (cs.length + 1) := by rw [pow_succ]; ring
        _ = _ := by simp

/-- PARSEHEX accepts exactly on the length and the digits, and the value is the accumulation (R76). -/
theorem parseHex_eq_ok_iff {f : Format} {t : Text} {b : Nat} :
    parseHex f t = .ok b ↔ (stripPrefix t).length = f.hexDigits ∧ accumulate 0 (stripPrefix t) = some b := by
  unfold parseHex
  split_ifs with h
  · cases ha : accumulate 0 (stripPrefix t) <;> simp [h]
  · simp [h]

theorem parseHex_eq_err_iff {f : Format} {t : Text} :
    parseHex f t = .err .malformedHex ↔
      (stripPrefix t).length ≠ f.hexDigits ∨ ∃ c ∈ stripPrefix t, isHex c = false := by
  rw [← accumulate_eq_none_iff (b := 0)]
  unfold parseHex
  split_ifs with h
  · cases ha : accumulate 0 (stripPrefix t) <;> simp [h]
  · simp [h]

/-- The result is a pattern of the format (R77). -/
theorem parseHex_ok_lt {f : Format} {t : Text} {b : Nat} (h : parseHex f t = .ok b) : b < 2 ^ f.totalBits := by
  obtain ⟨hl, ha⟩ := parseHex_eq_ok_iff.1 h
  have := accumulate_lt ha
  rw [hl, f.sixteen_pow_hexDigits] at this
  omega

/-- A text longer than 18 characters is malformed at every format (R88). -/
theorem parseHex_long {f : Format} {t : Text} (h : 18 < t.length) : parseHex f t = .err .malformedHex := by
  refine parseHex_eq_err_iff.2 (.inl ?_)
  have hs : t.length ≤ (stripPrefix t).length + 2 := by
    unfold stripPrefix; split
    · split_ifs <;> simp
    · simp
  have hn : f.hexDigits ≤ 16 := by cases f <;> decide
  omega

end Machine

end Sys2Proof
end

