-- ==== Sys2Proof/Laws/PerInstr.lean ====
section
/-! SUPPORT. Statements made of every instruction, one lemma per constructor. -/

namespace Sys2Proof.Laws

/-- Family RequestWord: the word of an instruction decodes to it, and its fields are the instruction's parts
(R40 to R42, R53); the instruction is well formed exactly when its word names a format. -/
def RequestWord.Statement (i : Instr) : Prop :=
  decode (encode i) = i ∧ (encode i).extractLsb' 2 1 = encodeOperation i.operation ∧
    (encode i).extractLsb' 0 2 = encodeFormat i.format ∧ (i.wellFormed = i.format.isSome)

theorem RequestWord.decomposeH : RequestWord.Statement .decomposeH := by
  unfold RequestWord.Statement; decide
theorem RequestWord.decomposeS : RequestWord.Statement .decomposeS := by
  unfold RequestWord.Statement; decide
theorem RequestWord.decomposeD : RequestWord.Statement .decomposeD := by
  unfold RequestWord.Statement; decide
theorem RequestWord.reserved011 : RequestWord.Statement .reserved011 := by
  unfold RequestWord.Statement; decide
theorem RequestWord.parseHexH : RequestWord.Statement .parseHexH := by
  unfold RequestWord.Statement; decide
theorem RequestWord.parseHexS : RequestWord.Statement .parseHexS := by
  unfold RequestWord.Statement; decide
theorem RequestWord.parseHexD : RequestWord.Statement .parseHexD := by
  unfold RequestWord.Statement; decide
theorem RequestWord.reserved111 : RequestWord.Statement .reserved111 := by
  unfold RequestWord.Statement; decide

end Sys2Proof.Laws
end

