-- ==== Sys2Proof/Laws/Decode.lean ====
section
/-! SUPPORT. Reading and writing a request word are inverse. -/

namespace Sys2Proof

/-- Every instruction, by the one lemma per constructor. -/
theorem Laws.requestWord (i : Instr) : Laws.RequestWord.Statement i := by
  cases i
  exacts [Laws.RequestWord.decomposeH, Laws.RequestWord.decomposeS, Laws.RequestWord.decomposeD,
    Laws.RequestWord.reserved011, Laws.RequestWord.parseHexH, Laws.RequestWord.parseHexS, Laws.RequestWord.parseHexD,
    Laws.RequestWord.reserved111]

@[simp] theorem decode_encode (i : Instr) : decode (encode i) = i := (Laws.requestWord i).1

theorem encode_decode (w : RequestWord) : encode (decode w) = w := by revert w; decide

/-- A request word names a format exactly when its `fmt` is not the reserved code (R53). -/
theorem decode_wellFormed_iff (w : RequestWord) : (decode w).wellFormed = true ↔ w.extractLsb' 0 2 ≠ 0b11#2 := by
  revert w; decide

end Sys2Proof
end

