-- ==== Sys2Proof/Laws/State.lean ====
section
/-! SUPPORT. One lemma per field per update of State, so that no proof unfolds a record update. -/

namespace Sys2Proof.Machine

@[simp] theorem respond_inp (o : OutPorts) (r : Response) (s : State) : (respond o r s).inp = s.inp := rfl
@[simp] theorem respond_out (o : OutPorts) (r : Response) (s : State) : (respond o r s).out = o := rfl
@[simp] theorem respond_response (o : OutPorts) (r : Response) (s : State) : (respond o r s).response = some r := rfl

@[simp] theorem answerFields_inp (f : Format) (d : DecodedFields) (s : State) : (answerFields f d s).inp = s.inp := rfl
@[simp] theorem answerFields_out (f : Format) (d : DecodedFields) (s : State) :
    (answerFields f d s).out = fieldsPins f d s.inp := rfl
@[simp] theorem answerFields_response (f : Format) (d : DecodedFields) (s : State) :
    (answerFields f d s).response = some (.fields d) := rfl

@[simp] theorem answerPattern_inp (f : Format) (b : Nat) (s : State) : (answerPattern f b s).inp = s.inp := rfl
@[simp] theorem answerPattern_out (f : Format) (b : Nat) (s : State) :
    (answerPattern f b s).out = patternPins f b s.inp := rfl
@[simp] theorem answerPattern_response (f : Format) (b : Nat) (s : State) :
    (answerPattern f b s).response = some (.parsed (.ok b)) := rfl

@[simp] theorem raiseError_inp (f : Format) (e : ParseError) (s : State) : (raiseError f e s).inp = s.inp := rfl
@[simp] theorem raiseError_out (f : Format) (e : ParseError) (s : State) :
    (raiseError f e s).out = errorPins f e s.inp := rfl
@[simp] theorem raiseError_response (f : Format) (e : ParseError) (s : State) :
    (raiseError f e s).response = some (.parsed (.err e)) := rfl

@[simp] theorem drive_inp (p : InPorts) (s : State) : (s.drive p).inp = p := rfl
@[simp] theorem drive_out (p : InPorts) (s : State) : (s.drive p).out = s.out := rfl
@[simp] theorem drive_response (p : InPorts) (s : State) : (s.drive p).response = s.response := rfl

@[simp] theorem withFetchWord_cmd (s : State) (n w : Nat) : (s.withFetchWord n w).inp.cmd = BitVec.ofNat 3 w := rfl
@[simp] theorem withFetchWord_bitsIn (s : State) (n w : Nat) : (s.withFetchWord n w).inp.bitsIn = s.inp.bitsIn := rfl
@[simp] theorem withFetchWord_textLen (s : State) (n w : Nat) : (s.withFetchWord n w).inp.textLen = s.inp.textLen := rfl
@[simp] theorem withFetchWord_text (s : State) (n w : Nat) : (s.withFetchWord n w).inp.text = s.inp.text := rfl
@[simp] theorem withFetchWord_out (s : State) (n w : Nat) : (s.withFetchWord n w).out = s.out := rfl
@[simp] theorem withFetchWord_response (s : State) (n w : Nat) : (s.withFetchWord n w).response = s.response := rfl

@[simp] theorem present_decompose_cmd (f : Format) (b : Nat) (p : InPorts) :
    (present (.decompose f b) p).cmd = encode (.decompose f) := rfl
@[simp] theorem present_decompose_bitsIn (f : Format) (b : Nat) (p : InPorts) :
    (present (.decompose f b) p).bitsIn = overwriteLow f b p.bitsIn := rfl
@[simp] theorem present_decompose_textLen (f : Format) (b : Nat) (p : InPorts) :
    (present (.decompose f b) p).textLen = p.textLen := rfl
@[simp] theorem present_decompose_text (f : Format) (b : Nat) (p : InPorts) :
    (present (.decompose f b) p).text = p.text := rfl
@[simp] theorem present_parseHex_cmd (f : Format) (t : Text) (p : InPorts) :
    (present (.parseHex f t) p).cmd = encode (.parseHex f) := rfl
@[simp] theorem present_parseHex_bitsIn (f : Format) (t : Text) (p : InPorts) :
    (present (.parseHex f t) p).bitsIn = p.bitsIn := rfl
@[simp] theorem present_parseHex_textLen (f : Format) (t : Text) (p : InPorts) :
    (present (.parseHex f t) p).textLen = t.length := rfl
@[simp] theorem present_parseHex_text (f : Format) (t : Text) (p : InPorts) :
    (present (.parseHex f t) p).text = t ++ p.text.drop t.length := rfl

end Sys2Proof.Machine
end

