-- ==== Sys2Proof/Laws/Ops.lean ====
section
/-! SUPPORT. What each shared operation, `exec` and `step` can do, said once. -/

namespace Sys2Proof.Machine

theorem exec_decompose (f : Format) (s : State) : exec (.decompose f) s = .next (doDecompose f s) := by
  cases f <;> rfl

theorem exec_parseHex (f : Format) (s : State) : exec (.parseHex f) s = .next (doParseHex f s) := by
  cases f <;> rfl

/-- Every request word is DECOMPOSE or PARSEHEX at a format, or refused. -/
theorem exec_cases (i : Instr) (s : State) :
    (∃ f, i = .decompose f ∧ exec i s = .next (doDecompose f s)) ∨
    (∃ f, i = .parseHex f ∧ exec i s = .next (doParseHex f s)) ∨
    (i.wellFormed = false ∧ exec i s = .refused .reservedFormat) := by
  cases i
  · exact .inl ⟨.binary16, rfl, rfl⟩
  · exact .inl ⟨.binary32, rfl, rfl⟩
  · exact .inl ⟨.binary64, rfl, rfl⟩
  · exact .inr (.inr ⟨rfl, rfl⟩)
  · exact .inr (.inl ⟨.binary16, rfl, rfl⟩)
  · exact .inr (.inl ⟨.binary32, rfl, rfl⟩)
  · exact .inr (.inl ⟨.binary64, rfl, rfl⟩)
  · exact .inr (.inr ⟨rfl, rfl⟩)

theorem step_eq_exec (s : State) : step s = exec (decode s.inp.cmd) s := rfl

theorem doDecompose_eq (f : Format) (s : State) :
    doDecompose f s = answerFields f (decompose f (patternOperand f s.inp)) s := rfl

/-- PARSEHEX answers with the pattern its text operand spells, or raises the error. -/
theorem doParseHex_cases (f : Format) (s : State) :
    (∃ t b, textOperand s.inp = some t ∧ parseHex f t = .ok b ∧ doParseHex f s = answerPattern f b s) ∨
    ((∀ t, textOperand s.inp = some t → parseHex f t = .err .malformedHex) ∧
      doParseHex f s = raiseError f .malformedHex s) := by
  unfold doParseHex
  cases ht : textOperand s.inp with
  | none => right; simp
  | some t =>
    cases hp : parseHex f t with
    | ok b => left; exact ⟨t, b, rfl, hp, by simp [hp]⟩
    | err e => right; cases e; simp [hp]

theorem doParseHex_of_text {f : Format} {s : State} {t : Text} (h : textOperand s.inp = some t) :
    doParseHex f s =
      match parseHex f t with
      | .ok b => answerPattern f b s
      | .err e => raiseError f e s := by
  cases hp : parseHex f t <;> simp [doParseHex, h, hp]

@[simp] theorem doDecompose_inp (f : Format) (s : State) : (doDecompose f s).inp = s.inp := rfl

@[simp] theorem doParseHex_inp (f : Format) (s : State) : (doParseHex f s).inp = s.inp := by
  obtain ⟨t, b, -, -, h⟩ | ⟨-, h⟩ := doParseHex_cases f s <;> rw [h] <;> rfl

/-- No operation reads the outputs or the response. -/
theorem doDecompose_congr {f : Format} {s s' : State} (h : s.inp = s'.inp) : doDecompose f s = doDecompose f s' := by
  cases s; cases s'; cases h; rfl

theorem doParseHex_congr {f : Format} {s s' : State} (h : s.inp = s'.inp) : doParseHex f s = doParseHex f s' := by
  cases s; cases s'; cases h
  simp only [doParseHex, answerPattern, raiseError, respond]

theorem exec_congr {i : Instr} {s s' : State} (h : s.inp = s'.inp) : exec i s = exec i s' := by
  obtain ⟨f, rfl, -⟩ | ⟨f, rfl, -⟩ | ⟨hw, -⟩ := exec_cases i s
  · simp [exec_decompose, doDecompose_congr h]
  · simp [exec_parseHex, doParseHex_congr h]
  · cases i <;> first | rfl | cases hw

theorem exec_next_inp {i : Instr} {s t : State} (h : exec i s = .next t) : t.inp = s.inp := by
  obtain ⟨f, -, e⟩ | ⟨f, -, e⟩ | ⟨-, e⟩ := exec_cases i s <;> rw [e] at h <;> cases h <;> simp

end Sys2Proof.Machine
end

