-- ==== Sys2Proof/Laws/Host.lean ====
section
/-! SUPPORT. Presenting a request and stepping. -/

namespace Sys2Proof.Machine

/-- A step depends on the inputs alone (R14). -/
theorem step_congr {s s' : State} (h : s.inp = s'.inp) : step s = step s' := by
  rw [step_eq_exec, step_eq_exec, h]; exact exec_congr h

theorem presentsText_present (f : Format) (t : Text) (p : InPorts) :
    presentsText t (present (.parseHex f t) p) := ⟨rfl, List.prefix_append _ _⟩

theorem overwriteLow_mod (f : Format) (b : Nat) (old : BitVec 64) :
    (overwriteLow f b old).toNat % 2 ^ f.totalBits = b % 2 ^ f.totalBits := by
  have hd : 2 ^ f.totalBits ∣ 2 ^ 64 := Nat.pow_dvd_pow _ (by cases f <;> decide)
  rw [overwriteLow, BitVec.toNat_ofNat, Nat.mod_mod_of_dvd _ hd, Nat.mul_comm, Nat.mul_add_mod, Nat.mod_mod]

theorem patternOperand_present (f : Format) (b : Nat) (p : InPorts) :
    patternOperand f (present (.decompose f b) p) = b % 2 ^ f.totalBits := overwriteLow_mod f b p.bitsIn

/-- PARSEHEX on ports that carry `t`, from every state. -/
theorem exec_parseHex_of_presentsText {f : Format} {t : Text} {s : State} (h : presentsText t s.inp) :
    ∃ u, exec (.parseHex f) s = .next u ∧ u.inp = s.inp ∧ u.response = some (.parsed (parseHex f t)) := by
  refine ⟨_, exec_parseHex f s, doParseHex_inp f s, ?_⟩
  rw [doParseHex_of_text (textOperand_of_presentsText h)]
  cases parseHex f t <;> rfl

/-- A step on a presented DECOMPOSE request. -/
theorem step_present_decompose (f : Format) (b : Nat) (s : State) :
    step (s.drive (present (.decompose f b) s.inp)) =
      .next (answerFields f (decompose f (b % 2 ^ f.totalBits)) (s.drive (present (.decompose f b) s.inp))) := by
  rw [step_eq_exec, drive_inp, present_decompose_cmd, decode_encode, exec_decompose, doDecompose_eq, drive_inp,
    patternOperand_present]

/-- A step on a presented PARSEHEX request. -/
theorem step_present_parseHex (f : Format) (t : Text) (s : State) :
    ∃ u, step (s.drive (present (.parseHex f t) s.inp)) = .next u ∧ u.inp = present (.parseHex f t) s.inp ∧
      u.response = some (.parsed (parseHex f t)) := by
  rw [step_eq_exec, drive_inp, present_parseHex_cmd, decode_encode]
  exact exec_parseHex_of_presentsText (s := s.drive _) (presentsText_present f t s.inp)

/-- LEN_W bits hold every length up to TEXT_MAX (R9). -/
theorem lt_two_pow_lenW {n : Nat} (h : n ≤ Config.textMax) : n < 2 ^ Config.lenW := by
  have := Nat.le_pow_clog (b := 2) (by norm_num) (Config.textMax + 1)
  unfold Config.lenW; omega

/-- Presenting a well-formed request keeps the size of the input ports. -/
theorem present_wellFormed {r : Request} {p : InPorts} (h : r.wellFormed = true) (hp : p.wellFormed = true) :
    (present r p).wellFormed = true := by
  cases r with
  | decompose f b => exact hp
  | parseHex f t =>
    simp only [InPorts.wellFormed, Bool.and_eq_true, decide_eq_true_eq, Request.wellFormed] at *
    refine ⟨?_, lt_two_pow_lenW h⟩
    simp only [present_parseHex_text, List.length_append, List.length_drop]; omega

end Sys2Proof.Machine
end

