-- ==== Sys2Proof/Laws/Pins.lean ====
section
/-! SUPPORT. The fields of a pattern as bit slices of `bits_in`, and the ports that carry them. -/

namespace Sys2Proof.Machine

theorem signOf_patternOperand {f : Format} {n : Nat} (h : f.exponentBits + f.mantissaBits = n) (p : InPorts) :
    signOf f (patternOperand f p) = (p.bitsIn.extractLsb' n 1).toNat := by
  have ht : f.totalBits = 1 + n := by rw [f.totalBits_eq]; omega
  rw [signOf_eq, patternOperand, h, ht, BitVec.extractLsb'_toNat, Nat.shiftRight_eq_div_pow, Nat.pow_one,
    ← Nat.mod_mul_right_div_self, ← Nat.mod_mul_right_div_self, ← pow_succ,
    Nat.mod_mod_of_dvd _ (Nat.pow_dvd_pow _ (by omega))]

theorem exponentRawOf_patternOperand {f : Format} {e m : Nat} (he : f.exponentBits = e) (hm : f.mantissaBits = m)
    (p : InPorts) : exponentRawOf f (patternOperand f p) = (p.bitsIn.extractLsb' m e).toNat := by
  have ht : f.totalBits = 1 + e + m := by rw [f.totalBits_eq, he, hm]
  rw [exponentRawOf_eq, patternOperand, he, hm, ht, BitVec.extractLsb'_toNat, Nat.shiftRight_eq_div_pow,
    ← Nat.mod_mul_right_div_self, ← Nat.mod_mul_right_div_self, ← pow_add,
    Nat.mod_mod_of_dvd _ (Nat.pow_dvd_pow _ (by omega))]

theorem mantissaRawOf_patternOperand {f : Format} {m : Nat} (hm : f.mantissaBits = m) (p : InPorts) :
    mantissaRawOf f (patternOperand f p) = (p.bitsIn.extractLsb' 0 m).toNat := by
  have ht := f.totalBits_eq
  rw [mantissaRawOf_eq, patternOperand, hm, BitVec.extractLsb'_toNat, Nat.shiftRight_zero,
    Nat.mod_mod_of_dvd _ (Nat.pow_dvd_pow _ (by omega))]

/-- The pattern with given raw fields (R52). -/
theorem fields_of_reassembled (f : Format) {sg er mr : Nat} (h1 : sg < 2) (h2 : er < 2 ^ f.exponentBits)
    (h3 : mr < 2 ^ f.mantissaBits) :
    let b := sg * 2 ^ (f.exponentBits + f.mantissaBits) + er * 2 ^ f.mantissaBits + mr
    signOf f b = sg ∧ exponentRawOf f b = er ∧ mantissaRawOf f b = mr := by
  intro b
  have hb : b = (sg * 2 ^ f.exponentBits + er) * 2 ^ f.mantissaBits + mr := by
    simp only [b, pow_add]; ring
  have d1 : b / 2 ^ f.mantissaBits = sg * 2 ^ f.exponentBits + er := by
    rw [hb, Nat.add_comm, Nat.add_mul_div_right _ _ (Nat.two_pow_pos _), Nat.div_eq_of_lt h3]; omega
  have d2 : (sg * 2 ^ f.exponentBits + er) / 2 ^ f.exponentBits = sg := by
    rw [Nat.add_comm, Nat.add_mul_div_right _ _ (Nat.two_pow_pos _), Nat.div_eq_of_lt h2]; omega
  refine ⟨?_, ?_, ?_⟩
  · rw [signOf_eq, Nat.add_comm f.exponentBits, pow_add, ← Nat.div_div_eq_div_mul, d1, d2]; omega
  · rw [exponentRawOf_eq, d1, Nat.add_comm, Nat.add_mul_mod_self_right, Nat.mod_eq_of_lt h2]
  · rw [mantissaRawOf_eq, hb, Nat.add_comm, Nat.add_mul_mod_self_right, Nat.mod_eq_of_lt h3]

/-- A fraction that is there has the significand over `2^mantissaBits`, with the implicit bit for a Normal. -/
theorem mantissaFractionOf_eq_some {f : Format} {mr : Nat} {c : Category} {q : Fraction}
    (h : mantissaFractionOf f mr c = some q) :
    q = ⟨(if c = .normal then 2 ^ f.mantissaBits else 0) + mr, 2 ^ f.mantissaBits⟩ := by
  cases c <;> simp [significandOf, mantissaFractionOf] at h ⊢ <;> exact h.symm

theorem mantissaFractionOf_eq_none_iff {f : Format} {mr : Nat} {c : Category} :
    mantissaFractionOf f mr c = none ↔ c = .infinityOrNaN := by
  cases c <;> simp [significandOf, mantissaFractionOf]

/-- `sig` carries the numerator (R67). -/
@[simp] theorem sigInteger_eq (f : Format) (S : Nat) : sigInteger f ⟨S, 2 ^ f.mantissaBits⟩ = S := by
  simp [sigInteger]

theorem fieldsPins_sig {f : Format} {b S : Nat} {p : InPorts}
    (h : significandOf f (mantissaRawOf f b) (categorize f (exponentRawOf f b) (mantissaRawOf f b)) = some S) :
    (fieldsPins f (decompose f b) p).sig = BitVec.ofNat 53 S := by
  simp [fieldsPins, mantissaFractionOf, h, zext]

/-- Every output of DECOMPOSE, the ports that carry any value too, depends on the pattern operand alone (R32). -/
theorem fieldsPins_congr {f : Format} {d : DecodedFields} {p p' : InPorts}
    (h : patternOperand f p = patternOperand f p') : fieldsPins f d p = fieldsPins f d p' := by
  simp only [fieldsPins, readByDecompose_congr h]

/-- DECOMPOSE answers alike, on every output port, whatever stands on the inputs it ignores (R32, R73 d). -/
theorem doDecompose_outputs_congr {f : Format} {s s' : State} (h : patternOperand f s.inp = patternOperand f s'.inp) :
    (doDecompose f s).response = (doDecompose f s').response ∧ (doDecompose f s).out = (doDecompose f s').out := by
  simp [doDecompose_eq, h, fieldsPins_congr h]

/-- PARSEHEX answers alike, on every output port, whatever stands on the inputs it ignores (U7). -/
theorem doParseHex_outputs_congr {f : Format} {s s' : State} (h : readByParseHex f s.inp = readByParseHex f s'.inp) :
    (doParseHex f s).response = (doParseHex f s').response ∧ (doParseHex f s).out = (doParseHex f s').out := by
  have ht : textOperand s.inp = textOperand s'.inp := by
    rw [← textOperand_readByParseHex f, h, textOperand_readByParseHex]
  cases ho : textOperand s'.inp with
  | none => simp [doParseHex, ht, ho, errorPins, h]
  | some t =>
    rw [doParseHex_of_text ho, doParseHex_of_text (ht.trans ho)]
    cases parseHex f t <;> simp [errorPins, patternPins, h]

/-- `Ok(b)` fits `bits_out` (R25). -/
theorem patternPins_bitsOut_toNat {f : Format} {b : Nat} {p : InPorts} (h : b < 2 ^ f.totalBits) :
    (patternPins f b p).bitsOut.toNat = b := by
  have : 2 ^ f.totalBits ≤ 2 ^ 64 := Nat.pow_le_pow_right (by norm_num) (by cases f <;> decide)
  simp only [patternPins, zext, BitVec.toNat_ofNat]
  exact Nat.mod_eq_of_lt (by omega)

end Sys2Proof.Machine
end

