-- ==== Sys2Proof/Laws/Spelling.lean ====
section
/-! SUPPORT. Prefixes and spellings. -/

namespace Sys2Proof.Machine

/-- The prefix by positions (R78). -/
theorem stripPrefix_eq (t : Text) :
    stripPrefix t =
      if 2 ≤ t.length ∧ t[0]? = some 0x30#8 ∧ (t[1]? = some 0x78#8 ∨ t[1]? = some 0x58#8) then t.drop 2 else t := by
  match t with
  | [] => rfl
  | [c] => simp [stripPrefix]
  | c :: c' :: r => simp [stripPrefix, charZero, isPrefixX]

/-- `x` is not a hex digit, so a text that begins `0x` is never `n` digits as it stands (R78). -/
theorem isHex_of_isPrefixX {c : CharCode} (h : isPrefixX c = true) : isHex c = false := by
  revert c; decide +kernel

theorem stripPrefix_of_isHex {t : Text} (h : ∀ c ∈ t, isHex c = true) : stripPrefix t = t := by
  match t with
  | [] => rfl
  | [c] => rfl
  | c :: c' :: r =>
    have := h c' (by simp)
    simp only [stripPrefix]
    split_ifs with hx
    · rw [isHex_of_isPrefixX hx.2] at this; cases this
    · rfl

theorem stripPrefix_prefix (pre : Prefix) {t : Text} (h : ∀ c ∈ t, isHex c = true) :
    stripPrefix (pre.chars ++ t) = t := by
  cases pre
  · exact stripPrefix_of_isHex h
  · rfl
  · rfl

/-- Every text is a prefix and what is left of it (R78). -/
theorem eq_prefix_append_stripPrefix (t : Text) : ∃ pre : Prefix, t = pre.chars ++ stripPrefix t := by
  match t with
  | [] => exact ⟨.none, rfl⟩
  | [c] => exact ⟨.none, rfl⟩
  | c :: c' :: r =>
    simp only [stripPrefix]
    split_ifs with hx
    · obtain ⟨rfl, h⟩ := hx
      simp only [isPrefixX, Bool.or_eq_true, beq_iff_eq] at h
      rcases h with rfl | rfl
      · exact ⟨.lowerX, rfl⟩
      · exact ⟨.upperX, rfl⟩
    · exact ⟨.none, rfl⟩

@[simp] theorem spellDigits_length (upper : Nat → Bool) (n b : Nat) : (spellDigits upper n b).length = n := by
  induction n with
  | zero => rfl
  | succ n ih => simp [spellDigits, ih]

/-- The digits of `b` accumulate to `b` (R50). -/
theorem accumulate_spellDigits (upper : Nat → Bool) (n b a : Nat) :
    accumulate a (spellDigits upper n b) = some (a * 16 ^ n + b % 16 ^ n) := by
  induction n generalizing a with
  | zero => simp [spellDigits, accumulate, Nat.mod_one]
  | succ n ih =>
    have h16 : b / 16 ^ n % 16 < 16 := Nat.mod_lt _ (by norm_num)
    have hc : hexVal (hexChar (upper n) (b / 16 ^ n % 16)) = some (b / 16 ^ n % 16) :=
      hexVal_hexChar (upper n) ⟨_, h16⟩
    simp only [spellDigits, accumulate, hc, ih]
    congr 1
    rw [Nat.pow_succ, Nat.mod_mul]; ring

end Sys2Proof.Machine
end

