-- ==== Sys2Proof/Tests/Slice0.lean ====
section
/-! SUPPORT. Tests: the checks of WellFormed on ill-formed terms, request words written out from R42, vectors of
spec/95_test_vectors.md (named in each test), and, for every obligation with hypotheses, a witness that meets them. -/

namespace Sys2Proof.Tests

open Sys2Proof.Machine

/-- Input ports with the given request word and operands. -/
def ports (cmd : RequestWord) (bitsIn : BitVec 64) (textLen : Nat) (text : List CharCode) : InPorts :=
  { cmd := cmd, bitsIn := bitsIn, textLen := textLen, text := text }

/-- The state after reset with the host driving the given ports. -/
def facing (p : InPorts) : State := State.reset.drive p

/-- The state an outcome leaves, if it is a next state. -/
def nextOf : Host.Outcome State Fault Refusal → Option State
  | .next t => some t
  | .fault _ => none
  | .refused _ => none

/-- The ports of a DECOMPOSE response but `sig`. -/
def fieldPorts (t : State) : BitVec 1 × BitVec 1 × BitVec 11 × BitVec 52 × BitVec 12 × BitVec 2 :=
  (t.out.err, t.out.sign, t.out.expRaw, t.out.manRaw, t.out.expUnb, t.out.cat)

/-- The ports of a PARSEHEX response. -/
def parsePorts (t : State) : BitVec 1 × BitVec 64 := (t.out.err, t.out.bitsOut)

/-! ## WellFormed refuses -/

theorem test_reserved_words_ill_formed : (Instr.reserved011.wellFormed || Instr.reserved111.wellFormed) = false := by
  decide

/-- 2^16 is no Binary16 pattern (R12). -/
theorem test_wide_pattern_ill_formed : (Request.decompose .binary16 0x10000).wellFormed = false := by decide

/-- A text one longer than TEXT_MAX cannot be presented (R12). -/
theorem test_long_text_ill_formed :
    (Request.parseHex .binary64 (List.replicate (Config.textMax + 1) 0x30#8)).wellFormed = false := by
  simp [Request.wellFormed]

/-- A text port of 17 entries is below every TEXT_MAX (R9). -/
theorem test_short_text_port_ill_formed : (ports 4 0 4 (List.replicate 17 0x30#8)).wellFormed = false := by
  have : (17 : Nat) ≠ Config.textMax := by unfold Config.textMax; omega
  simp [InPorts.wellFormed, ports, this]

/-- `text_len` has LEN_W bits (R9). -/
theorem test_wide_text_len_ill_formed : (ports 4 0 (2 ^ Config.lenW) resetInputs.text).wellFormed = false := by
  simp [InPorts.wellFormed, ports]

/-! ## Request words, written out from the table of R42: op bit, then the two fmt bits -/

theorem test_word_decomposeH : decode 0b000#3 = .decomposeH ∧ encode .decomposeH = 0b000#3 := by decide
theorem test_word_decomposeS : decode 0b001#3 = .decomposeS ∧ encode .decomposeS = 0b001#3 := by decide
theorem test_word_decomposeD : decode 0b010#3 = .decomposeD ∧ encode .decomposeD = 0b010#3 := by decide
theorem test_word_reserved011 : decode 0b011#3 = .reserved011 ∧ encode .reserved011 = 0b011#3 := by decide
theorem test_word_parseHexH : decode 0b100#3 = .parseHexH ∧ encode .parseHexH = 0b100#3 := by decide
theorem test_word_parseHexS : decode 0b101#3 = .parseHexS ∧ encode .parseHexS = 0b101#3 := by decide
theorem test_word_parseHexD : decode 0b110#3 = .parseHexD ∧ encode .parseHexD = 0b110#3 := by decide
theorem test_word_reserved111 : decode 0b111#3 = .reserved111 ∧ encode .reserved111 = 0b111#3 := by decide
theorem test_word_wider_rejected : decodeTableWord 8 0b1000 = none := by decide

/-- The table's word of PARSEHEX.S runs as the first step after reset. -/
theorem test_first_step_runs_the_word :
    step (State.reset.withFetchWord 8 0x5) = exec .parseHexS (State.reset.withFetchWord 8 0x5) := rfl

/-! ## DECOMPOSE: section 5 of spec/95_test_vectors.md -/

theorem test_decomposeH_junk_above :
    (nextOf (step (facing (ports 0b000 0xFFFFFFFFFFFF3E00 0 [])))).map (fun t => (fieldPorts t, t.out.sig)) =
      some ((0, 0, 0x00F, 0x200, 0x000, 0b10), 0x600) := by decide

theorem test_decomposeH_negative_subnormal :
    (nextOf (step (facing (ports 0b000 0x8001 0 [])))).map (fun t => (fieldPorts t, t.out.sig)) =
      some ((0, 1, 0x000, 0x001, 0xFF1, 0b01), 0x001) := by decide

theorem test_decomposeS_junk_above :
    (nextOf (step (facing (ports 0b001 0xDEADBEEF40490FDB 0 [])))).map (fun t => (fieldPorts t, t.out.sig)) =
      some ((0, 0, 0x080, 0x490FDB, 0x001, 0b10), 0xC90FDB) := by decide

/-- FC Scenario 6 (V6, DS10): the category and the absent fraction. -/
theorem test_decomposeS_infinityOrNaN :
    (nextOf (step (facing (ports 0b001 0x7F800000 0 [])))).map (·.response) =
      some (some (.fields ⟨0, 255, 0, 128, none, .infinityOrNaN⟩)) := by decide

/-- FC Scenario 5 (V5, DD1). -/
theorem test_decomposeD_negative_zero :
    (nextOf (step (facing (ports 0b010 0x8000000000000000 0 [])))).map fieldPorts =
      some (0, 1, 0x000, 0x000, 0xC01, 0b00) := by decide

/-- DD9, with the `sig` the table's note gives. -/
theorem test_decomposeD_pi :
    (nextOf (step (facing (ports 0b010 0x400921FB54442D18 0 [])))).map (fun t => (fieldPorts t, t.out.sig)) =
      some ((0, 0, 0x400, 0x921FB54442D18, 0x001, 0b10), 0x1921FB54442D18) := by decide

/-- DH5: a subnormal is scaled by `1 - bias`, not by `exponentUnbiased`. -/
theorem test_val_subnormal : val .binary16 (decompose .binary16 0x0200) = some ((1 : ℚ) / 32768) := by
  have h : decompose .binary16 0x0200 = ⟨0, 0, 512, -15, some ⟨512, 1024⟩, .subnormal⟩ := by decide
  rw [h]; norm_num [val, scaled, Fraction.toRat, Format.bias, Format.exponentBits]

/-- DH13: the greatest finite value, negated. -/
theorem test_val_normal : val .binary16 (decompose .binary16 0xFBFF) = some (-65504 : ℚ) := by
  have h : decompose .binary16 0xFBFF = ⟨1, 30, 1023, 15, some ⟨2047, 1024⟩, .normal⟩ := by decide
  rw [h]; norm_num [val, scaled, Fraction.toRat]

/-! ## PARSEHEX: sections 3 and 5 of spec/95_test_vectors.md -/

/-- `3e00`, then junk in the entries after it. -/
theorem test_parseHexH_junk_after :
    (nextOf (step (facing (ports 0b100 0 4 [0x33, 0x65, 0x30, 0x30, 0x30, 0xFF])))).map parsePorts =
      some (0, 0x3E00) := by decide

/-- A leading space is malformed. -/
theorem test_parseHexH_space :
    (nextOf (step (facing (ports 0b100 0 5 [0x20, 0x33, 0x45, 0x30, 0x30])))).map parsePorts = some (1, 0) := by decide

/-- `0XFFFFFFFF`. -/
theorem test_parseHexS_prefixed :
    (nextOf (step (facing (ports 0b101 0 10 [0x30, 0x58, 0x46, 0x46, 0x46, 0x46, 0x46, 0x46, 0x46, 0x46])))).map
      parsePorts = some (0, 0xFFFFFFFF) := by decide

/-- PS12, `0x40490fdg`. -/
theorem test_parseHexS_bad_digit :
    (nextOf (step (facing (ports 0b101 0 10 [0x30, 0x78, 0x34, 0x30, 0x34, 0x39, 0x30, 0x66, 0x64, 0x67])))).map
      (·.response) = some (some (.parsed (.err .malformedHex))) := by decide

/-- `400921FB54442D18`. -/
theorem test_parseHexD_sixteen_digits :
    (nextOf (step (facing (ports 0b110 0 16 [0x34, 0x30, 0x30, 0x39, 0x32, 0x31, 0x46, 0x42, 0x35, 0x34, 0x34, 0x34,
      0x32, 0x44, 0x31, 0x38])))).map parsePorts = some (0, 0x400921FB54442D18) := by decide

/-- PD12, eighteen zeros: the prefixed length without the prefix. -/
theorem test_parseHexD_no_prefix :
    (nextOf (step (facing (ports 0b110 0 18 (List.replicate 18 0x30))))).map parsePorts = some (1, 0) := by decide

/-! ## Refusal and host sequences -/

theorem test_reserved_refused : step (facing (ports 0b011 0x3E00 4 [])) = .refused .reservedFormat ∧
    step (facing (ports 0b111 0x3E00 4 [0x33, 0x65, 0x30, 0x30])) = .refused .reservedFormat := ⟨rfl, rfl⟩

/-- Program 1 of spec/95_test_vectors.md, CONVERTHEX.S of `0x40490fdb`. -/
theorem test_convertHex_program_1 :
    ((convertHex .binary32 [0x30, 0x78, 0x34, 0x30, 0x34, 0x39, 0x30, 0x66, 0x64, 0x62]).run State.reset).responses =
      (true, [.parsed (.ok 0x40490FDB), .fields ⟨0, 128, 4788187, 1, some ⟨13176795, 8388608⟩, .normal⟩]) := by decide

/-- A host sequence that drives a reserved word is marked refused (section 6). -/
theorem test_host_refused :
    ((HostProgram.drive (ports 0b111 0 0 []) fun _ => .done).run State.reset).responses = (false, []) := by decide

/-! ## Witnesses: hypotheses that can be met -/

/-- `3E00` on the text port, a Binary16 pattern under junk on `bits_in`. -/
def demo : InPorts := ports 0b100 0xFFFF3E00 4 [0x33, 0x45, 0x30, 0x30, 0x20]

theorem witness_StepRunsTheRequestWord : (facing demo).inp.cmd = encode .parseHexH := by decide

theorem witness_RequestWordsDecodeToTheirRows : (8 : Nat) ≤ 8 := by decide

theorem witness_presentsPattern : presentsPattern .binary16 0x3E00 (facing demo).inp := by
  exact ⟨by decide, by decide⟩

theorem witness_CategoryIsDeterminedByTheFields :
    0xBE00 % 2 ^ (Format.binary16.totalBits - 1) = 0x3E00 % 2 ^ (Format.binary16.totalBits - 1) := by decide

/-- One pattern of each category, at the boundaries of R68 (also of CategoriesPartitionThePatterns). -/
theorem witness_categories :
    [0x8000, 0x0001, 0x03FF, 0x0400, 0x7BFF, 0x7C00, 0xFFFF].map (fun b => (decompose .binary16 b).category) =
      [.zero, .subnormal, .subnormal, .normal, .normal, .infinityOrNaN, .infinityOrNaN] := by decide

/-- `er` of DecomposeHDrivesThePorts at 0, between and at 31. -/
theorem witness_DecomposeHDrivesThePorts :
    (facing (ports 0 0x03FF 0 [])).inp.bitsIn.extractLsb' 10 5 = 0#5 ∧
    ((facing (ports 0 0x7BFF 0 [])).inp.bitsIn.extractLsb' 10 5 ≠ 0#5 ∧
      (facing (ports 0 0x7BFF 0 [])).inp.bitsIn.extractLsb' 10 5 ≠ 31#5) ∧
    (facing (ports 0 0x7C00 0 [])).inp.bitsIn.extractLsb' 10 5 = 31#5 := by decide

theorem witness_DecomposeSDrivesThePorts :
    (facing (ports 1 0x007FFFFF 0 [])).inp.bitsIn.extractLsb' 23 8 = 0#8 ∧
    ((facing (ports 1 0x7F7FFFFF 0 [])).inp.bitsIn.extractLsb' 23 8 ≠ 0#8 ∧
      (facing (ports 1 0x7F7FFFFF 0 [])).inp.bitsIn.extractLsb' 23 8 ≠ 255#8) ∧
    (facing (ports 1 0x7F800000 0 [])).inp.bitsIn.extractLsb' 23 8 = 255#8 := by decide

theorem witness_DecomposeDDrivesThePorts :
    (facing (ports 2 0x000FFFFFFFFFFFFF 0 [])).inp.bitsIn.extractLsb' 52 11 = 0#11 ∧
    ((facing (ports 2 0x7FEFFFFFFFFFFFFF 0 [])).inp.bitsIn.extractLsb' 52 11 ≠ 0#11 ∧
      (facing (ports 2 0x7FEFFFFFFFFFFFFF 0 [])).inp.bitsIn.extractLsb' 52 11 ≠ 2047#11) ∧
    (facing (ports 2 0x7FF0000000000000 0 [])).inp.bitsIn.extractLsb' 52 11 = 2047#11 := by decide

/-- The greatest pattern, and the greatest field values, of Binary16. -/
theorem witness_FieldsReassembleThePattern :
    0xFFFF < 2 ^ Format.binary16.totalBits ∧ 1 < 2 ∧ 31 < 2 ^ Format.binary16.exponentBits ∧
      1023 < 2 ^ Format.binary16.mantissaBits ∧
      (decompose .binary16 0xFFFF).sign = (decompose .binary16 0xFFFF).sign := by decide

theorem witness_SignSymmetry : 0xFFFF < 2 ^ Format.binary16.totalBits := by decide

theorem witness_DecomposeReadsOnlyThePattern :
    (facing demo).inp.bitsIn.toNat % 2 ^ Format.binary16.totalBits =
      (facing (ports 0 0x3E00 0 [])).inp.bitsIn.toNat % 2 ^ Format.binary16.totalBits := by decide

theorem witness_ValueOrderFollowsPatternOrder :
    0x03FF < 2 ^ (Format.binary16.totalBits - 1) ∧ 0x0400 < 2 ^ (Format.binary16.totalBits - 1) ∧
      (decompose .binary16 0x03FF).category ≠ .infinityOrNaN ∧
      (decompose .binary16 0x0400).category ≠ .infinityOrNaN := by decide

theorem witness_presentsText : presentsText [0x33, 0x45, 0x30, 0x30] (facing demo).inp := by
  exact ⟨rfl, by decide⟩

/-- ParseHexChecksLengthAndDigits: a wrong length, a wrong digit (`3G00`), and neither (the text of `demo`). -/
theorem witness_ParseHexChecksLengthAndDigits :
    ([0x33, 0x45, 0x30] : Text).length ≠ 4 ∧ (∃ c ∈ ([0x33, 0x47, 0x30, 0x30] : Text), isHex c = false) ∧
      ([0x33, 0x45, 0x30, 0x30] : Text).length = 4 ∧ ∀ c ∈ ([0x33, 0x45, 0x30, 0x30] : Text), isHex c = true := by
  decide

/-- A text in each clause of AcceptedTextsAreAssembledBySignificance: `3E00`, `0x3E00`, and `003E00`, which is neither. -/
theorem witness_AcceptedTextsAreAssembledBySignificance :
    ([0x33, 0x45, 0x30, 0x30] : Text).length = Format.binary16.hexDigits ∧
    (∀ i : Fin 4, ∃ c, ([0x33, 0x45, 0x30, 0x30] : Text)[i.val]? = some c ∧ isHex c = true) ∧
    ([0x30, 0x78, 0x33, 0x45, 0x30, 0x30] : Text).length = Format.binary16.hexDigits + 2 ∧ isPrefixX 0x78#8 = true ∧
    (∀ i : Fin 4, ∃ c, ([0x30, 0x78, 0x33, 0x45, 0x30, 0x30] : Text)[i.val + 2]? = some c ∧ isHex c = true) ∧
    ([0x30, 0x30, 0x33, 0x45, 0x30, 0x30] : Text).length ≠ Format.binary16.hexDigits ∧ isPrefixX 0x30#8 = false := by
  refine ⟨by decide, ?_, by decide, by decide, ?_, by decide, by decide⟩ <;>
    intro i <;> fin_cases i <;> exact ⟨_, rfl, by decide⟩

theorem witness_ParseHexIsTotal : (facing (ports 0b111 0 0 [])).inp.cmd = 0b111#3 := by decide

/-- Both clauses of LongTextsAreMalformed, at their boundary: 19 characters on 18 entries. -/
theorem witness_LongTextsAreMalformed :
    18 < (facing (ports 4 0 19 (List.replicate 18 0x30))).inp.textLen ∧
      (facing (ports 4 0 19 (List.replicate 18 0x30))).inp.text.length <
        (facing (ports 4 0 19 (List.replicate 18 0x30))).inp.textLen := by decide

/-- The same text on other ports, with other entries after it. -/
theorem witness_ParseHexReadsOnlyTheText :
    presentsText [0x33, 0x45, 0x30, 0x30] (facing demo).inp ∧
      presentsText [0x33, 0x45, 0x30, 0x30] (facing (ports 0b100 7 4 [0x33, 0x45, 0x30, 0x30, 0x31])).inp := by
  exact ⟨⟨rfl, by decide⟩, ⟨rfl, by decide⟩⟩

/-- Both clauses of IgnoredInputsInfluenceNoOutput: the pattern of `demo` under other bits, and its text before another
entry. -/
theorem witness_IgnoredInputsInfluenceNoOutput :
    (facing demo).inp.bitsIn.toNat % 2 ^ Format.binary16.totalBits =
      (facing (ports 0b100 0xABCD3E00 4 [0x33, 0x45, 0x30, 0x30])).inp.bitsIn.toNat % 2 ^ Format.binary16.totalBits ∧
    (facing demo).inp.textLen = (facing (ports 0b100 0xABCD3E00 4 [0x33, 0x45, 0x30, 0x30])).inp.textLen ∧
    ∀ k, k < 4 → (facing demo).inp.text[k]? =
      (facing (ports 0b100 0xABCD3E00 4 [0x33, 0x45, 0x30, 0x30])).inp.text[k]? := by decide

theorem witness_PrefixChangesNothing :
    ([0x33, 0x45, 0x30, 0x30] : Text).length = Format.binary16.hexDigits ∧
      ∀ c ∈ ([0x33, 0x45, 0x30, 0x30] : Text), isHex c = true := by decide

/-- A pattern with letters in its spelling, and one of its spellings (`0xfe01`). -/
theorem witness_Spellings : 0xFE01 < 2 ^ Format.binary16.totalBits ∧
    spell .binary16 .lowerX (fun _ => false) 0xFE01 = [0x30, 0x78, 0x66, 0x65, 0x30, 0x31] ∧
    State.reset.ask (.parseHex .binary16 [0x30, 0x78, 0x66, 0x65, 0x30, 0x31]) = some (.parsed (.ok 0xFE01)) := by
  decide

/-- Two malformed requests of different formats (the empty text, and a text of 4 digits at Binary32). -/
theorem witness_ErrorRecordsNothing :
    ∃ t t', exec (.parseHex .binary16) (facing (ports 4 0 0 [])) = .next t ∧
      exec (.parseHex .binary32) (facing demo) = .next t' ∧
      (¬ ∃ b, t.response = some (.parsed (.ok b))) ∧ ¬ ∃ b, t'.response = some (.parsed (.ok b)) := by
  refine ⟨_, _, rfl, rfl, ?_, ?_⟩
  · rintro ⟨b, h⟩
    have e : (doParseHex .binary16 (facing (ports 4 0 0 []))).response = some (.parsed (.err .malformedHex)) := by decide
    exact absurd (e.symm.trans h) (by simp)
  · rintro ⟨b, h⟩
    have e : (doParseHex .binary32 (facing demo)).response = some (.parsed (.err .malformedHex)) := by decide
    exact absurd (e.symm.trans h) (by simp)

theorem witness_MalformedHexIsOnlyAResponse :
    presentsText [] (facing (ports 4 0 0 [])).inp ∧ parseHex .binary16 [] = .err .malformedHex := by
  exact ⟨⟨rfl, by decide⟩, by decide⟩

/-- Both sides of StepAnswersExactlyTheLegalWords. -/
theorem witness_StepAnswersExactlyTheLegalWords :
    (facing demo).inp.cmd.extractLsb' 0 2 ≠ 0b11#2 ∧ (facing (ports 3 0 0 [])).inp.cmd.extractLsb' 0 2 = 0b11#2 := by
  decide

/-- A step that is answered, for NoRequestChangesTheInputs and RequestsAreIdempotent. -/
theorem witness_answered : ∃ t, exec .parseHexH (facing demo) = .next t ∧ step (facing demo) = .next t :=
  ⟨_, rfl, rfl⟩

/-- The same inputs after different answers. -/
theorem witness_NoResponseDependsOnAnEarlierRequest :
    ∃ s s' : State, s.inp = s'.inp ∧ s.response ≠ s'.response :=
  ⟨facing demo, doParseHex .binary16 (facing demo), rfl, by decide⟩

theorem witness_PresentedRequestIsAnswered :
    (Request.decompose .binary16 0xFFFF).wellFormed = true ∧
      (Request.parseHex .binary64 (List.replicate 18 0x30#8)).wellFormed = true := by
  refine ⟨by decide, ?_⟩
  simp [Request.wellFormed, Config.textMax]

theorem witness_EachResponseDependsOnItsRequestAlone :
    ∀ q ∈ [Request.decompose .binary16 0xFFFF, .decompose .binary64 0], q.wellFormed = true := by decide

theorem witness_ConvertHexParsesThenDecomposes :
    parseHex .binary16 [0x33, 0x45, 0x30, 0x30] = .ok 0x3E00 ∧ parseHex .binary16 [] = .err .malformedHex := by decide

/-- The input ports at reset have the instance's size. -/
theorem reset_ports_wellFormed : State.reset.inp.wellFormed = true := by
  simp only [InPorts.wellFormed, Bool.and_eq_true, decide_eq_true_eq]
  exact ⟨List.length_replicate .., lt_two_pow_lenW (Nat.zero_le _)⟩

theorem witness_StepKeepsTheInvariant : State.reset.Inv ∧ ∃ t, step State.reset = .next t := by
  refine ⟨⟨reset_ports_wellFormed, ?_⟩, ⟨_, rfl⟩⟩
  intro r h; cases h

/-- CONVERTHEX of any text the port can carry is a sequence the host may present. -/
theorem convertHex_wellFormed {f : Format} {t : Text} (h : t.length ≤ Config.textMax) :
    (convertHex f t).wellFormed := by
  refine ⟨by simpa [Request.wellFormed] using h, ?_⟩
  intro a ha
  match a, ha with
  | .parsed (.ok b), ha => exact ⟨by simpa [Request.wellFormed, Format.fits] using (show b < 2 ^ f.totalBits from ha), fun _ _ => trivial⟩
  | .parsed (.err .malformedHex), _ => trivial
  | .fields d, _ => trivial

theorem witness_HostSequencesFinishInTheInvariant :
    State.reset.Inv ∧ (convertHex .binary16 [0x33, 0x45, 0x30, 0x30]).wellFormed :=
  ⟨witness_StepKeepsTheInvariant.1, convertHex_wellFormed (by simp [Config.textMax])⟩

end Sys2Proof.Tests
end

section
/-! The block holds no state: determinism over the input ports. -/

namespace Sys2Proof.Machine

/-- Settles O37: the block holds no state (R14, R20), so the two steps are one and the same outcome. -/
theorem noResponseDependsOnAnEarlierRequest : Obligations.NoResponseDependsOnAnEarlierRequest := by
  intro s s' hinp
  have hstep : step s = step s' := step_congr hinp
  constructor
  · intro t
    rw [hstep]
  · intro r
    rw [hstep]

end Sys2Proof.Machine
end

section
/-! The inputs a request ignores, and the responses of a list of requests. -/

namespace Sys2Proof.Machine

/-- PARSEHEX reads the same from text ports that agree entry by entry below `text_len` (U7). -/
theorem readByParseHex_congr_getElem? {f : Format} {p p' : InPorts} (hlen : p.textLen = p'.textLen)
    (hget : ∀ k, k < p.textLen → p.text[k]? = p'.text[k]?) : readByParseHex f p = readByParseHex f p' := by
  apply readByParseHex_congr hlen
  rw [← hlen]
  apply List.ext_getElem?
  intro k
  by_cases hk : k < p.textLen
  · rw [List.getElem?_take_of_lt hk, List.getElem?_take_of_lt hk, hget k hk]
  · rw [List.getElem?_take_eq_none (by omega), List.getElem?_take_eq_none (by omega)]

/-- Settles O46: the outputs of each operation depend only on what it reads of the ports (R32, U6, U7). -/
theorem ignoredInputsInfluenceNoOutput : Obligations.IgnoredInputsInfluenceNoOutput := by
  intro f s s'
  constructor
  · intro hbits
    exact ⟨_, _, exec_decompose f s, exec_decompose f s', doDecompose_outputs_congr hbits⟩
  · intro hlen hget
    exact ⟨_, _, exec_parseHex f s, exec_parseHex f s',
      doParseHex_outputs_congr (readByParseHex_congr_getElem? hlen hget)⟩

/-- A step on a presented request in range gives `F` of the request, from every state (R37, R122). -/
theorem step_present_answer {q : Request} (hq : q.wellFormed = true) (s : State) :
    ∃ u, step (s.drive (present q s.inp)) = .next u ∧ u.response = some (answer q) := by
  cases q with
  | decompose f b =>
    have hb : b < 2 ^ f.totalBits := of_decide_eq_true hq
    refine ⟨_, step_present_decompose f b s, ?_⟩
    rw [answerFields_response, Nat.mod_eq_of_lt hb, answer]
  | parseHex f t =>
    obtain ⟨u, hstep, -, hresp⟩ := step_present_parseHex f t s
    exact ⟨u, hstep, hresp⟩

/-- An answered step of a host sequence: its response is read first, then the rest runs from the answered state. -/
theorem askPorts_of_step {p : InPorts} {s u : State} {a : Response} {next : Response → State → HostRun}
    (hstep : step (s.drive p) = .next u) (hresp : u.response = some a) :
    askPorts p s next = (next a u).after a := by
  simp only [askPorts, hstep, hresp]

/-- Presenting a request in range reads `F` of it and goes on from some state. -/
theorem run_ask {q : Request} (hq : q.wellFormed = true) (next : Response → HostProgram) (s : State) :
    ∃ u, (HostProgram.ask q next).run s = ((next (answer q)).run u).after (answer q) := by
  obtain ⟨u, hstep, hresp⟩ := step_present_answer hq s
  exact ⟨u, askPorts_of_step hstep hresp⟩

/-- Settles O40, by induction on the list: a request is answered with `F` of it from whatever state the earlier ones
left (R37). -/
theorem eachResponseDependsOnItsRequestAlone : Obligations.EachResponseDependsOnItsRequestAlone := by
  intro qs
  induction qs with
  | nil =>
    intro s _
    exact ⟨s, rfl⟩
  | cons q qs ih =>
    intro s hqs
    obtain ⟨hq, hrest⟩ := List.forall_mem_cons.mp hqs
    obtain ⟨u, hask⟩ := run_ask hq (fun _ => HostProgram.ofList qs) s
    obtain ⟨t, ht⟩ := ih u hrest
    refine ⟨t, ?_⟩
    rw [HostProgram.ofList, hask, ht, HostRun.after, List.map_cons]

end Sys2Proof.Machine
end

section
/-! The fields DECOMPOSE answers with, and the category they determine. -/

namespace Sys2Proof.Machine

/-- The pattern the ports carry is the pattern operand (R23). -/
theorem patternOperand_of_presentsPattern {f : Format} {b : Nat} {p : InPorts} (h : presentsPattern f b p) :
    patternOperand f p = b := h.2

/-- DECOMPOSE on ports that carry `b`, from every state (R58). -/
theorem exec_decompose_of_presentsPattern {f : Format} {b : Nat} {s : State} (h : presentsPattern f b s.inp) :
    ∃ u, exec (.decompose f) s = .next u ∧ u.inp = s.inp ∧ u.response = some (.fields (decompose f b)) := by
  refine ⟨_, exec_decompose f s, doDecompose_inp f s, ?_⟩
  rw [doDecompose_eq, patternOperand_of_presentsPattern h, answerFields_response]

/-- The four tests of R63, in their order. -/
theorem categorize_eq_tests (f : Format) (er mr : Nat) :
    categorize f er mr = (if er = 0 ∧ mr = 0 then .zero else if er = 0 ∧ mr ≠ 0 then .subnormal
      else if er = allOnes f.exponentBits then .infinityOrNaN else .normal) := by
  split_ifs with hzero hsub hones
  · exact categorize_eq_zero.mpr hzero
  · exact categorize_eq_subnormal.mpr hsub
  · exact categorize_eq_infinityOrNaN.mpr hones
  · exact categorize_eq_normal.mpr ⟨by tauto, hones⟩

/-- Without the implicit bit the fraction is the stored mantissa (R66). -/
theorem mantissaFractionOf_toRat_of_zero_or_subnormal {f : Format} {mr : Nat} {c : Category}
    (h : c = .zero ∨ c = .subnormal) :
    (mantissaFractionOf f mr c).map Fraction.toRat = some ((mr : ℚ) / 2 ^ f.mantissaBits) := by
  obtain rfl | rfl := h <;> simp [mantissaFractionOf, significandOf, Fraction.toRat]

/-- For a Normal the implicit bit adds one to the stored mantissa (R66). -/
theorem mantissaFractionOf_toRat_normal (f : Format) (mr : Nat) :
    (mantissaFractionOf f mr .normal).map Fraction.toRat = some (1 + (mr : ℚ) / 2 ^ f.mantissaBits) := by
  simp [mantissaFractionOf, significandOf, Fraction.toRat, add_div]

/-- Settles O7: the response is `decompose` of the presented pattern, and each field is its formula (R58 to R67). -/
theorem decomposeAnswersTheFields : Obligations.DecomposeAnswersTheFields := by
  intro f b s hb e m er mr
  have her : exponentRawOf f b = er := exponentRawOf_eq f b
  have hmr : mantissaRawOf f b = mr := mantissaRawOf_eq f b
  obtain ⟨t, hexec, hinp, hresp⟩ := exec_decompose_of_presentsPattern hb
  refine ⟨t, decompose f b, hexec, hinp, hresp, signOf_eq f b, her, hmr, ?_⟩
  rw [decompose_exponentUnbiased, decompose_category, decompose_mantissaFraction, her, hmr]
  refine ⟨rfl, categorize_eq_tests f er mr, mantissaFractionOf_toRat_of_zero_or_subnormal, fun hnormal => ?_,
    mantissaFractionOf_eq_none_iff.mpr⟩
  rw [hnormal, mantissaFractionOf_toRat_normal]

/-- The exponent field lies below the top bit of the pattern (R60). -/
theorem exponentRawOf_mod_sign (f : Format) (b : Nat) :
    exponentRawOf f (b % 2 ^ (f.totalBits - 1)) = exponentRawOf f b := by
  have htop : f.totalBits - 1 = f.mantissaBits + f.exponentBits := by rw [f.totalBits_eq]; omega
  rw [exponentRawOf_eq, exponentRawOf_eq, htop, pow_add, Nat.mod_mul_right_div_self, Nat.mod_mod]

/-- The mantissa field lies below the top bit of the pattern (R61). -/
theorem mantissaRawOf_mod_sign (f : Format) (b : Nat) :
    mantissaRawOf f (b % 2 ^ (f.totalBits - 1)) = mantissaRawOf f b := by
  have htop : f.mantissaBits ≤ f.totalBits - 1 := by rw [f.totalBits_eq]; omega
  rw [mantissaRawOf_eq, mantissaRawOf_eq, Nat.mod_mod_of_dvd _ (Nat.pow_dvd_pow 2 htop)]

/-- The sign plays no part in the category (R63). -/
theorem decompose_category_congr {f : Format} {b b' : Nat}
    (h : b' % 2 ^ (f.totalBits - 1) = b % 2 ^ (f.totalBits - 1)) :
    (decompose f b').category = (decompose f b).category := by
  rw [decompose_category, decompose_category, ← exponentRawOf_mod_sign f b', ← mantissaRawOf_mod_sign f b', h,
    exponentRawOf_mod_sign, mantissaRawOf_mod_sign]

/-- Settles O12: each test of R63 gives its category, and patterns equal below the sign bit have equal raw fields. -/
theorem categoryIsDeterminedByTheFields : Obligations.CategoryIsDeterminedByTheFields := by
  intro f b s hb
  obtain ⟨t, hexec, -, hresp⟩ := exec_decompose_of_presentsPattern hb
  exact ⟨t, decompose f b, hexec, hresp, categorize_eq_zero.mpr, categorize_eq_subnormal.mpr,
    categorize_eq_infinityOrNaN.mpr, categorize_eq_normal.mpr, fun _ => decompose_category_congr⟩

end Sys2Proof.Machine
end

section
/-! PARSEHEX accepts exactly on the length and the digits, and gives one of its two results. -/

namespace Sys2Proof.Machine

/-- A text whose remainder after the prefix is `n` hex digits is read as the accumulation of their values (R76, R77). -/
theorem parseHex_ok_of_digits {f : Format} {t : Text} (hlen : (stripPrefix t).length = f.hexDigits)
    (hdigits : ∀ c ∈ stripPrefix t, isHex c = true) :
    ∃ vs : List Nat, (stripPrefix t).map hexVal = vs.map some ∧
      parseHex f t = .ok (vs.foldl (fun b v => b * 16 + v) 0) := by
  cases hacc : accumulate 0 (stripPrefix t) with
  | none =>
    obtain ⟨c, hc, hnot⟩ := accumulate_eq_none_iff.mp hacc
    rw [hdigits c hc] at hnot
    cases hnot
  | some b =>
    obtain ⟨vs, hvs, rfl⟩ := accumulate_eq_some_iff.mp hacc
    exact ⟨vs, hvs, parseHex_eq_ok_iff.mpr ⟨hlen, hacc⟩⟩

/-- Settles O22: the digits of the statement are what the prefix leaves of the text (R78), and the response is `parseHex`
of the presented text, which fails on the length (R79) or on a digit (R80) and is their accumulation otherwise. -/
theorem parseHexChecksLengthAndDigits : Obligations.ParseHexChecksLengthAndDigits := by
  intro f t s ht n digits
  have hn : f.hexDigits = n := by cases f <;> rfl
  have hdigits : stripPrefix t = digits := stripPrefix_eq t
  obtain ⟨u, hexec, hinp, hresp⟩ := exec_parseHex_of_presentsText (f := f) ht
  refine ⟨u, hexec, hinp, ?_⟩
  rw [← hn, ← hdigits, hresp]
  refine ⟨fun hlen => ?_, fun hbad => ?_, fun hlen hall => ?_⟩
  · rw [parseHex_eq_err_iff.mpr (.inl hlen)]
  · rw [parseHex_eq_err_iff.mpr (.inr hbad)]
  · obtain ⟨vs, hvs, hok⟩ := parseHex_ok_of_digits hlen hall
    exact ⟨vs, hvs, by rw [hok]⟩

/-- The response of PARSEHEX on any ports: `Ok` of a pattern of the format, or the error (R85). -/
theorem doParseHex_response (f : Format) (s : State) :
    (∃ b, b < 2 ^ f.totalBits ∧ (doParseHex f s).response = some (.parsed (.ok b))) ∨
      (doParseHex f s).response = some (.parsed (.err .malformedHex)) := by
  obtain ⟨t, b, -, hok, hdo⟩ | ⟨-, hdo⟩ := doParseHex_cases f s
  · left
    exact ⟨b, parseHex_ok_lt hok, by rw [hdo, answerPattern_response]⟩
  · right
    rw [hdo, raiseError_response]

/-- A request whose word is the reserved PARSEHEX row is refused, whatever its text is (R53, R106). -/
theorem step_reserved111 {s : State} (h : s.inp.cmd = encode .reserved111) : step s = .refused .reservedFormat := by
  rw [step_eq_exec, h, decode_encode]
  rfl

/-- Settles O25: `parseHex` has two results, an accepted one is below `16^n = 2^totalBits`, and `0b111` is the reserved
row's word (R85). -/
theorem parseHexIsTotal : Obligations.ParseHexIsTotal := by
  constructor
  · intro f s
    exact ⟨_, exec_parseHex f s, doParseHex_response f s⟩
  · intro s hcmd
    exact step_reserved111 hcmd

end Sys2Proof.Machine
end

section
/-! The exceptions: what PARSEHEX answers without a pattern, and DECOMPOSE, which raises nothing. -/

namespace Sys2Proof.Machine

/-- An answered PARSEHEX step without a pattern has the bare tag as its response (R100, R102). -/
theorem exec_parseHex_response_of_no_pattern {f : Format} {s t : State} (h : exec (.parseHex f) s = .next t)
    (hno : ¬ ∃ b, t.response = some (.parsed (.ok b))) : t.response = some (.parsed (.err .malformedHex)) := by
  rw [exec_parseHex] at h
  cases h
  obtain ⟨b, -, hok⟩ | herr := doParseHex_response f s
  · exact absurd ⟨b, hok⟩ hno
  · exact herr

/-- Settles O32: each of the two responses is the bare tag, so they are the same. -/
theorem errorRecordsNothing : Obligations.ErrorRecordsNothing := by
  intro f f' s s' t t' h h' hno hno'
  have herr := exec_parseHex_response_of_no_pattern h hno
  have herr' := exec_parseHex_response_of_no_pattern h' hno'
  exact ⟨herr, herr'.trans herr.symm⟩

/-- DECOMPOSE drives `err` to 0, whatever its operand is (R24, R103). -/
@[simp] theorem doDecompose_err (f : Format) (s : State) : (doDecompose f s).out.err = 0#1 := by
  rw [doDecompose_eq, answerFields_out, fieldsPins, errNone]

/-- DECOMPOSE answers with the fields of its operand, whatever the operand is (R58). -/
@[simp] theorem doDecompose_response (f : Format) (s : State) :
    (doDecompose f s).response = some (.fields (decompose f (patternOperand f s.inp))) := by
  rw [doDecompose_eq, answerFields_response]

/-- Settles O11: DECOMPOSE always answers with fields, and answering with fields drives `err` to 0 (R103). -/
theorem decomposeNeverErrs : Obligations.DecomposeNeverErrs := by
  intro f s
  exact ⟨doDecompose f s, _, exec_decompose f s, doDecompose_err f s, doDecompose_response f s⟩

end Sys2Proof.Machine
end

section
/-! The texts PARSEHEX reads as a pattern are the spellings of that pattern. -/

namespace Sys2Proof.Machine

/-- PARSEHEX of a presented text reads `parseHex` of it, from every state (R37). -/
theorem ask_parseHex (f : Format) (t : Text) (s : State) :
    s.ask (.parseHex f t) = some (.parsed (parseHex f t)) := by
  obtain ⟨u, hstep, -, hresp⟩ := step_present_parseHex f t s
  simp only [State.ask, hstep, hresp]

theorem ask_parseHex_eq_ok_iff {f : Format} {t : Text} {s : State} {b : Nat} :
    s.ask (.parseHex f t) = some (.parsed (.ok b)) ↔ parseHex f t = .ok b := by
  rw [ask_parseHex, Option.some_inj, Response.parsed.injEq]

/-- An accumulation shifts its start by the digits it reads (R77). -/
theorem accumulate_div {a b : Nat} {t : Text} (h : accumulate a t = some b) : b / 16 ^ t.length = a := by
  induction t generalizing a with
  | nil =>
    cases h
    exact Nat.div_one b
  | cons c cs ih =>
    cases hc : hexVal c with
    | none => simp [accumulate, hc] at h
    | some v =>
      have hv := hexVal_lt hc
      simp only [accumulate, hc] at h
      rw [List.length_cons, pow_succ, ← Nat.div_div_eq_div_mul, ih h]
      omega

/-- Digit `n` of a spelling takes its letter case from `upper n` alone. -/
theorem spellDigits_congr {upper upper' : Nat → Bool} {n : Nat} (h : ∀ k, k < n → upper k = upper' k) (b : Nat) :
    spellDigits upper n b = spellDigits upper' n b := by
  induction n with
  | zero => rfl
  | succ n ih => rw [spellDigits, spellDigits, h n (by omega), ih fun k hk => h k (by omega)]

/-- A leading digit of either letter case extends a spelling. -/
theorem exists_spellDigits_succ (u : Bool) (upper : Nat → Bool) (n b : Nat) :
    ∃ upper', spellDigits upper' (n + 1) b = hexChar u (b / 16 ^ n % 16) :: spellDigits upper n b := by
  refine ⟨Function.update upper n u, ?_⟩
  have hrest : spellDigits (Function.update upper n u) n b = spellDigits upper n b :=
    spellDigits_congr (fun k hk => Function.update_of_ne (by omega) u upper) b
  rw [spellDigits, Function.update_self, hrest]

/-- A hex digit is the character of its value in one of the two letter cases (R48). -/
theorem exists_eq_hexChar {c : CharCode} {v : Nat} (h : hexVal c = some v) : ∃ u, c = hexChar u v := by
  obtain hc | hc := (hexVal_eq_some_iff c ⟨v, hexVal_lt h⟩).mp h
  · exact ⟨true, hc⟩
  · exact ⟨false, hc⟩

/-- A digit text is the spelling of its value, each letter in the case the text has (R50). -/
theorem exists_eq_spellDigits {a b : Nat} {t : Text} (h : accumulate a t = some b) :
    ∃ upper, t = spellDigits upper t.length b := by
  induction t generalizing a with
  | nil => exact ⟨fun _ => false, rfl⟩
  | cons c cs ih =>
    cases hc : hexVal c with
    | none => simp [accumulate, hc] at h
    | some v =>
      simp only [accumulate, hc] at h
      have hdigit : b / 16 ^ cs.length % 16 = v := by
        have hv := hexVal_lt hc
        rw [accumulate_div h]
        omega
      obtain ⟨upper, hcs⟩ := ih h
      obtain ⟨u, hu⟩ := exists_eq_hexChar hc
      obtain ⟨upper', hupper'⟩ := exists_spellDigits_succ u upper cs.length b
      refine ⟨upper', ?_⟩
      rw [List.length_cons, hupper', hdigit, ← hu, ← hcs]

/-- The texts of `n` characters that accumulate to a value of `n` digits are its spellings (R50). -/
theorem accumulate_eq_some_iff_spelled {n b : Nat} (hb : b < 16 ^ n) {t : Text} :
    (t.length = n ∧ accumulate 0 t = some b) ↔ ∃ upper, t = spellDigits upper n b := by
  constructor
  · rintro ⟨rfl, hacc⟩
    exact exists_eq_spellDigits hacc
  · rintro ⟨upper, rfl⟩
    rw [accumulate_spellDigits, Nat.mod_eq_of_lt hb, Nat.zero_mul, Nat.zero_add]
    exact ⟨spellDigits_length upper n b, rfl⟩

/-- An accumulation succeeds exactly on hex digits (R80). -/
theorem exists_accumulate_iff {a : Nat} {t : Text} :
    (∃ b, accumulate a t = some b) ↔ ∀ c ∈ t, isHex c = true := by
  rw [← Option.ne_none_iff_exists', Ne, accumulate_eq_none_iff]
  simp only [not_exists, not_and, Bool.not_eq_false]

theorem isHex_of_mem_spellDigits {upper : Nat → Bool} {n b : Nat} :
    ∀ c ∈ spellDigits upper n b, isHex c = true :=
  exists_accumulate_iff.mp ⟨_, accumulate_spellDigits upper n b 0⟩

/-- What is left after the prefix belongs to a set of digit texts exactly when the text is a prefix and one of them
(R78). -/
theorem stripPrefix_mem_iff {D : Set Text} (hD : ∀ d ∈ D, ∀ c ∈ d, isHex c = true) {t : Text} :
    stripPrefix t ∈ D ↔ ∃ pre : Prefix, ∃ d ∈ D, t = pre.chars ++ d := by
  constructor
  · intro h
    obtain ⟨pre, ht⟩ := eq_prefix_append_stripPrefix t
    exact ⟨pre, stripPrefix t, h, ht⟩
  · rintro ⟨pre, d, hd, rfl⟩
    rwa [stripPrefix_prefix pre (hD d hd)]

/-- PARSEHEX reads a text as `b` exactly when what is left after the prefix spells `b` in `n` digits (R76). -/
theorem parseHex_eq_ok_iff_spelled {f : Format} {t : Text} {b : Nat} (hb : b < 2 ^ f.totalBits) :
    parseHex f t = .ok b ↔ stripPrefix t ∈ Set.range fun upper => spellDigits upper f.hexDigits b := by
  rw [← f.sixteen_pow_hexDigits] at hb
  rw [parseHex_eq_ok_iff, accumulate_eq_some_iff_spelled hb, Set.mem_range]
  simp only [eq_comm]

theorem isHex_of_mem_spellings {n b : Nat} :
    ∀ d ∈ Set.range (fun upper => spellDigits upper n b), ∀ c ∈ d, isHex c = true := by
  rintro d ⟨upper, rfl⟩
  exact isHex_of_mem_spellDigits

/-- Settles O29: an accepted text is a prefix and digits that accumulate to `b`, and by induction on the digits these
are the characters of the digits of `b`. -/
theorem spellingsAreExactlyTheAcceptedTexts : Obligations.SpellingsAreExactlyTheAcceptedTexts := by
  intro f t b s
  rw [ask_parseHex_eq_ok_iff]
  constructor
  · intro hok
    have hb := parseHex_ok_lt hok
    obtain ⟨pre, d, ⟨upper, rfl⟩, ht⟩ :=
      (stripPrefix_mem_iff isHex_of_mem_spellings).mp ((parseHex_eq_ok_iff_spelled hb).mp hok)
    exact ⟨hb, pre, upper, ht⟩
  · rintro ⟨hb, pre, upper, rfl⟩
    refine (parseHex_eq_ok_iff_spelled hb).mpr ((stripPrefix_mem_iff isHex_of_mem_spellings).mpr ?_)
    exact ⟨pre, _, ⟨upper, rfl⟩, rfl⟩

end Sys2Proof.Machine
end

section
/-! The response of a step is a possible one, and every field of it can be read back from its port. -/

namespace Sys2Proof.Machine

theorem zext_toNat {n v : Nat} (h : v < 2 ^ n) : (zext n v).toNat = v := by
  rw [zext, BitVec.toNat_ofNat, Nat.mod_eq_of_lt h]

theorem sext_toInt {n : Nat} {v : Int} (hn : 0 < n) (hlo : -2 ^ (n - 1) ≤ v) (hhi : v < 2 ^ (n - 1)) :
    (sext n v).toInt = v := by
  rw [sext, BitVec.toInt_ofInt_eq_self hn hlo hhi]

/-- `exponentUnbiased` lies in `-bias .. bias + 1` (R75). -/
theorem exponentUnbiased_bounds (f : Format) (b : Nat) :
    -(f.bias : Int) ≤ (decompose f b).exponentUnbiased ∧ (decompose f b).exponentUnbiased ≤ (f.bias : Int) + 1 := by
  have her := exponentRawOf_lt f b
  have hbias := f.bias_eq
  rw [decompose_exponentUnbiased]
  omega

theorem bias_le (f : Format) : f.bias ≤ 1023 := by cases f <;> decide

theorem mantissaBits_le (f : Format) : f.mantissaBits ≤ 52 := by cases f <;> decide

theorem exponentBits_le (f : Format) : f.exponentBits ≤ 11 := by cases f <;> decide

/-- The 12 bits of `exp_unb` hold every `exponentUnbiased` (R24). -/
theorem fieldsPins_expUnb_toInt (f : Format) (b : Nat) (p : InPorts) :
    (fieldsPins f (decompose f b) p).expUnb.toInt = (decompose f b).exponentUnbiased := by
  obtain ⟨hlo, hhi⟩ := exponentUnbiased_bounds f b
  have hbias := bias_le f
  exact sext_toInt (by omega) (by omega) (by omega)

/-- The numerator of a fraction that is there has at most one bit more than the mantissa field (R67). -/
theorem mantissaFraction_num_lt {f : Format} {b : Nat} {q : Fraction}
    (h : (decompose f b).mantissaFraction = some q) : q.num < 2 ^ (f.mantissaBits + 1) := by
  have hmr := mantissaRawOf_lt f b
  rw [decompose_mantissaFraction] at h
  rw [mantissaFractionOf_eq_some h, pow_succ]
  dsimp only
  split_ifs <;> omega

theorem mantissaFraction_den {f : Format} {b : Nat} {q : Fraction}
    (h : (decompose f b).mantissaFraction = some q) : q.den = 2 ^ f.mantissaBits := by
  rw [decompose_mantissaFraction] at h
  rw [mantissaFractionOf_eq_some h]

/-- `sig` carries the numerator of a fraction that is there (R67). -/
theorem fieldsPins_sig_toNat {f : Format} {b : Nat} {q : Fraction} (p : InPorts)
    (h : (decompose f b).mantissaFraction = some q) : (fieldsPins f (decompose f b) p).sig.toNat = q.num := by
  have hnum : q.num < 2 ^ 53 :=
    (mantissaFraction_num_lt h).trans_le (Nat.pow_le_pow_right (by norm_num) (by have := mantissaBits_le f; omega))
  have hden := mantissaFraction_den h
  obtain ⟨num, den⟩ := q
  dsimp only at hden
  subst hden
  simp only [fieldsPins, h, sigInteger_eq]
  exact zext_toNat hnum

theorem fieldsPins_sig_toRat {f : Format} {b : Nat} {q : Fraction} (p : InPorts)
    (h : (decompose f b).mantissaFraction = some q) :
    ((fieldsPins f (decompose f b) p).sig.toNat : ℚ) / 2 ^ f.mantissaBits = q.toRat := by
  rw [fieldsPins_sig_toNat p h, Fraction.toRat, mantissaFraction_den h]
  norm_cast

/-- The fields of a pattern are shown on the ports that carry them (R24). -/
theorem fieldsPins_shown (f : Format) (b : Nat) (p : InPorts) :
    shownOn f (.fields (decompose f b)) (fieldsPins f (decompose f b) p) := by
  have her : exponentRawOf f b < 2 ^ 11 :=
    (exponentRawOf_lt f b).trans_le (Nat.pow_le_pow_right (by norm_num) (exponentBits_le f))
  have hmr : mantissaRawOf f b < 2 ^ 52 :=
    (mantissaRawOf_lt f b).trans_le (Nat.pow_le_pow_right (by norm_num) (mantissaBits_le f))
  exact ⟨rfl, zext_toNat (signOf_lt f b), zext_toNat her, zext_toNat hmr, fieldsPins_expUnb_toInt f b p, rfl,
    fun q hq => fieldsPins_sig_toRat p hq⟩

/-- A state whose response is a possible one at `f`, shown on the outputs. -/
def ShowsResponse (f : Format) (s : State) : Prop :=
  ∃ r, s.response = some r ∧ possible f r ∧ shownOn f r s.out

theorem doDecompose_shows (f : Format) (s : State) : ShowsResponse f (doDecompose f s) :=
  ⟨_, doDecompose_response f s, ⟨_, patternOperand_lt f s.inp, rfl⟩, fieldsPins_shown f _ s.inp⟩

theorem doParseHex_shows (f : Format) (s : State) : ShowsResponse f (doParseHex f s) := by
  obtain ⟨t, b, -, hok, hdo⟩ | ⟨-, hdo⟩ := doParseHex_cases f s
  · have hb := parseHex_ok_lt hok
    exact ⟨.parsed (.ok b), by rw [hdo, answerPattern_response], hb,
      by rw [hdo, answerPattern_out]; exact ⟨rfl, patternPins_bitsOut_toNat hb⟩⟩
  · exact ⟨.parsed (.err .malformedHex), by rw [hdo, raiseError_response], trivial,
      by rw [hdo, raiseError_out]; exact ⟨rfl, rfl⟩⟩

@[simp] theorem instrDecompose_format (f : Format) : (Instr.decompose f).format = some f := by cases f <;> rfl

@[simp] theorem instrParseHex_format (f : Format) : (Instr.parseHex f).format = some f := by cases f <;> rfl

/-- A request word that names a format is answered at that format, with a possible response shown on the outputs. -/
theorem step_shows {s : State} {f : Format} (h : (decode s.inp.cmd).format = some f) :
    ∃ t, step s = .next t ∧ t.inp = s.inp ∧ ShowsResponse f t := by
  rw [step_eq_exec]
  obtain ⟨g, hi, hexec⟩ | ⟨g, hi, hexec⟩ | ⟨hbad, -⟩ := exec_cases (decode s.inp.cmd) s
  · obtain rfl : g = f := by rwa [hi, instrDecompose_format, Option.some_inj] at h
    exact ⟨_, hexec, doDecompose_inp g s, doDecompose_shows g s⟩
  · obtain rfl : g = f := by rwa [hi, instrParseHex_format, Option.some_inj] at h
    exact ⟨_, hexec, doParseHex_inp g s, doParseHex_shows g s⟩
  · obtain ⟨-, -, -, hword⟩ := Laws.requestWord (decode s.inp.cmd)
    rw [hbad, h] at hword
    cases hword

/-- A step that is answered is answered at some format. -/
theorem step_next_format {s t : State} (h : step s = .next t) : ∃ f, (decode s.inp.cmd).format = some f := by
  obtain ⟨-, -, -, hword⟩ := Laws.requestWord (decode s.inp.cmd)
  rw [step_eq_exec] at h
  obtain ⟨g, hi, -⟩ | ⟨g, hi, -⟩ | ⟨-, href⟩ := exec_cases (decode s.inp.cmd) s
  · exact ⟨g, by rw [hi, instrDecompose_format]⟩
  · exact ⟨g, by rw [hi, instrParseHex_format]⟩
  · rw [href] at h
    cases h

/-- A state of the right size that shows a possible response meets the invariant. -/
theorem inv_of_showsResponse {s : State} {f : Format} (hp : s.inp.wellFormed = true) (h : ShowsResponse f s) :
    s.Inv := by
  obtain ⟨r, hr, hposs, hshown⟩ := h
  refine ⟨hp, fun r' hr' => ⟨f, ?_⟩⟩
  obtain rfl : r = r' := Option.some.inj (hr.symm.trans hr')
  exact ⟨hposs, hshown⟩

/-- Settles O44: a step leaves the inputs alone, and its response is that of its format, shown on the outputs. -/
theorem stepKeepsTheInvariant : Obligations.StepKeepsTheInvariant := by
  intro s t hinv hstep
  obtain ⟨hp, -⟩ := hinv
  obtain ⟨f, hf⟩ := step_next_format hstep
  obtain ⟨t', hstep', hinp, hshows⟩ := step_shows hf
  obtain rfl : t = t' := Host.Outcome.next.inj (hstep.symm.trans hstep')
  exact inv_of_showsResponse (by rw [hinp]; exact hp) hshows

/-- A host sequence finishes in the invariant. -/
def FinishesInInv (run : HostRun) : Prop := ∃ t rs, run = .finished t rs ∧ t.Inv

theorem FinishesInInv.after {run : HostRun} (h : FinishesInInv run) (a : Response) : FinishesInInv (run.after a) := by
  obtain ⟨t, rs, rfl, ht⟩ := h
  exact ⟨t, a :: rs, rfl, ht⟩

/-- A request with a legal word on ports of the right size finishes in the invariant if the rest does, after every
response possible at the format of the word. -/
theorem askPorts_finishesInInv {p : InPorts} {s : State} {next : Response → State → HostRun} {f : Format}
    (hp : p.wellFormed = true) (hf : (decode p.cmd).format = some f)
    (hnext : ∀ a t, possible f a → t.Inv → FinishesInInv (next a t)) : FinishesInInv (askPorts p s next) := by
  obtain ⟨t, hstep, hinp, hshows⟩ := step_shows (s := s.drive p) hf
  have hinv : t.Inv := inv_of_showsResponse (by rw [hinp]; exact hp) hshows
  obtain ⟨a, ha, hposs, -⟩ := hshows
  rw [askPorts_of_step hstep ha]
  exact (hnext a t hposs hinv).after a

theorem present_cmd_format (r : Request) (p : InPorts) : (decode (present r p).cmd).format = some r.format := by
  cases r with
  | decompose f b =>
    rw [present_decompose_cmd, decode_encode, instrDecompose_format, Request.format]
  | parseHex f t =>
    rw [present_parseHex_cmd, decode_encode, instrParseHex_format, Request.format]

/-- Settles O45, by induction on the host sequence: each request is answered into the invariant with a response
possible at its format. -/
theorem hostSequencesFinishInTheInvariant : Obligations.HostSequencesFinishInTheInvariant := by
  intro prog
  induction prog with
  | done =>
    intro s hinv _
    exact ⟨s, [], rfl, hinv⟩
  | ask r next ih =>
    intro s hinv hwf
    obtain ⟨hp, -⟩ := hinv
    obtain ⟨hr, hnext⟩ := hwf
    exact askPorts_finishesInInv (present_wellFormed hr hp) (present_cmd_format r s.inp)
      fun a t hposs ht => ih a t ht (hnext a hposs)
  | drive p next ih =>
    intro s _ hwf
    obtain ⟨hp, f, hf, hnext⟩ := hwf
    exact askPorts_finishesInInv hp hf fun a t hposs ht => ih a t ht (hnext a hposs)

end Sys2Proof.Machine
end

section
/-! The DECOMPOSE ports as bit slices of `bits_in`. -/

namespace Sys2Proof.Machine

/-- The exponent field of the pattern on `bits_in` (R60). -/
def exponentSlice (f : Format) (p : InPorts) : BitVec f.exponentBits :=
  p.bitsIn.extractLsb' f.mantissaBits f.exponentBits

/-- The mantissa field of the pattern on `bits_in` (R61). -/
def mantissaSlice (f : Format) (p : InPorts) : BitVec f.mantissaBits := p.bitsIn.extractLsb' 0 f.mantissaBits

@[simp] theorem exponentRawOf_operand (f : Format) (p : InPorts) :
    exponentRawOf f (patternOperand f p) = (exponentSlice f p).toNat := exponentRawOf_patternOperand rfl rfl p

@[simp] theorem mantissaRawOf_operand (f : Format) (p : InPorts) :
    mantissaRawOf f (patternOperand f p) = (mantissaSlice f p).toNat := mantissaRawOf_patternOperand rfl p

/-- A bit slice on a port of another width (R24). -/
theorem zext_toNat_eq_setWidth {w : Nat} (n : Nat) (x : BitVec w) : zext n x.toNat = x.setWidth n := by
  rw [zext, BitVec.ofNat_toNat]

/-- `exponentRaw - bias` in two's complement is a subtraction of words (R62, R24). -/
theorem sext_sub_eq_setWidth {w : Nat} (n bias : Nat) (x : BitVec w) :
    sext n ((x.toNat : Int) - (bias : Int)) = x.setWidth n - BitVec.ofNat n bias := by
  rw [sext, sub_eq_add_neg, BitVec.ofInt_add, BitVec.ofInt_neg, BitVec.ofInt_natCast, BitVec.ofInt_natCast,
    BitVec.ofNat_toNat, BitVec.sub_eq_add_neg]

theorem toNat_eq_iff_eq_ofNat {w : Nat} {x : BitVec w} {n : Nat} (hn : n < 2 ^ w) :
    x.toNat = n ↔ x = BitVec.ofNat w n := by
  rw [← BitVec.toNat_inj, BitVec.toNat_ofNat, Nat.mod_eq_of_lt hn]

theorem allOnes_lt (n : Nat) : allOnes n < 2 ^ n := Nat.sub_lt (Nat.two_pow_pos n) Nat.one_pos

/-- The tests of R63 on the two bit slices, and the code of the category they give (R64). -/
theorem catCode_categorize {f : Format} (er : BitVec f.exponentBits) {m : Nat} (mr : BitVec m) :
    catCode (categorize f er.toNat mr.toNat) =
      if er = BitVec.ofNat _ 0 ∧ mr = BitVec.ofNat _ 0 then 0b00#2 else if er = BitVec.ofNat _ 0 then 0b01#2
        else if er = BitVec.ofNat _ (allOnes f.exponentBits) then 0b11#2 else 0b10#2 := by
  simp only [← toNat_eq_iff_eq_ofNat (allOnes_lt f.exponentBits), ← toNat_eq_iff_eq_ofNat (Nat.two_pow_pos _)]
  split_ifs with hzero hsub hones
  · rw [categorize_eq_zero.mpr hzero]; rfl
  · rw [categorize_eq_subnormal.mpr ⟨hsub, fun hmr => hzero ⟨hsub, hmr⟩⟩]; rfl
  · rw [categorize_eq_infinityOrNaN.mpr hones]; rfl
  · rw [categorize_eq_normal.mpr ⟨hsub, hones⟩]; rfl

/-- The implicit leading 1 in front of the mantissa field (R67). -/
theorem toNat_one_append {m : Nat} (mr : BitVec m) : (1#1 ++ mr).toNat = 2 ^ m + mr.toNat := by
  rw [BitVec.toNat_append, ← Nat.shiftLeft_add_eq_or_of_lt mr.isLt, BitVec.toNat_ofNat, Nat.shiftLeft_eq]
  norm_num

/-- The significand of an exponent field 0 is the mantissa field (R67). -/
theorem significandOf_categorize_zero (f : Format) (mr : Nat) :
    significandOf f mr (categorize f 0 mr) = some mr := by
  by_cases hmr : mr = 0
  · rw [categorize_eq_zero.mpr ⟨rfl, hmr⟩, significandOf]
  · rw [categorize_eq_subnormal.mpr ⟨rfl, hmr⟩, significandOf]

/-- `sig` is the mantissa field when the exponent field is 0 (R67). -/
theorem doDecompose_sig_of_exponent_zero {f : Format} {s : State} (h : exponentSlice f s.inp = BitVec.ofNat _ 0) :
    (doDecompose f s).out.sig = (mantissaSlice f s.inp).setWidth 53 := by
  have hzero : exponentRawOf f (patternOperand f s.inp) = 0 := by
    rw [exponentRawOf_operand, h, BitVec.toNat_ofNat, Nat.zero_mod]
  have hS := significandOf_categorize_zero f (mantissaRawOf f (patternOperand f s.inp))
  rw [← hzero] at hS
  rw [doDecompose_eq, answerFields_out, fieldsPins_sig hS, mantissaRawOf_operand, BitVec.ofNat_toNat]

/-- `sig` is the mantissa field with a 1 in front for a Normal (R67). -/
theorem doDecompose_sig_of_normal {f : Format} {s : State} (h0 : exponentSlice f s.inp ≠ BitVec.ofNat _ 0)
    (h1 : exponentSlice f s.inp ≠ BitVec.ofNat _ (allOnes f.exponentBits)) :
    (doDecompose f s).out.sig = (1#1 ++ mantissaSlice f s.inp).setWidth 53 := by
  have hcat : categorize f (exponentSlice f s.inp).toNat (mantissaSlice f s.inp).toNat = .normal :=
    categorize_eq_normal.mpr
      ⟨fun h => h0 ((toNat_eq_iff_eq_ofNat (Nat.two_pow_pos _)).mp h),
        fun h => h1 ((toNat_eq_iff_eq_ofNat (allOnes_lt _)).mp h)⟩
  have hS : significandOf f (mantissaSlice f s.inp).toNat .normal = some (1#1 ++ mantissaSlice f s.inp).toNat := by
    rw [significandOf, toNat_one_append]
  rw [← hcat, ← exponentRawOf_operand, ← mantissaRawOf_operand] at hS
  rw [doDecompose_eq, answerFields_out, fieldsPins_sig hS, BitVec.ofNat_toNat]

/-- Every DECOMPOSE port that is part of the response, for a format of `e` exponent and `m` mantissa bits (R24). -/
theorem exec_decompose_ports (f : Format) (s : State) :
    ∃ t, exec (.decompose f) s = .next t ∧ t.inp = s.inp ∧ t.out.err = 0#1 ∧
      t.out.sign = s.inp.bitsIn.extractLsb' (f.exponentBits + f.mantissaBits) 1 ∧
      t.out.expRaw = (exponentSlice f s.inp).setWidth 11 ∧
      t.out.manRaw = (mantissaSlice f s.inp).setWidth 52 ∧
      t.out.expUnb = (exponentSlice f s.inp).setWidth 12 - BitVec.ofNat 12 f.bias ∧
      t.out.cat = (if exponentSlice f s.inp = BitVec.ofNat _ 0 ∧ mantissaSlice f s.inp = BitVec.ofNat _ 0 then 0b00#2
        else if exponentSlice f s.inp = BitVec.ofNat _ 0 then 0b01#2
        else if exponentSlice f s.inp = BitVec.ofNat _ (allOnes f.exponentBits) then 0b11#2 else 0b10#2) ∧
      (exponentSlice f s.inp = BitVec.ofNat _ 0 → t.out.sig = (mantissaSlice f s.inp).setWidth 53) ∧
      (exponentSlice f s.inp ≠ BitVec.ofNat _ 0 →
        exponentSlice f s.inp ≠ BitVec.ofNat _ (allOnes f.exponentBits) →
        t.out.sig = (1#1 ++ mantissaSlice f s.inp).setWidth 53) := by
  have hsign := signOf_patternOperand (f := f) rfl s.inp
  refine ⟨doDecompose f s, exec_decompose f s, doDecompose_inp f s, doDecompose_err f s, ?_, ?_, ?_, ?_, ?_,
    doDecompose_sig_of_exponent_zero, doDecompose_sig_of_normal⟩ <;>
    rw [doDecompose_eq, answerFields_out, fieldsPins]
  · rw [decompose_sign, hsign, zext_toNat_eq_setWidth, BitVec.setWidth_eq]
  · rw [decompose_exponentRaw, exponentRawOf_operand, zext_toNat_eq_setWidth]
  · rw [decompose_mantissaRaw, mantissaRawOf_operand, zext_toNat_eq_setWidth]
  · rw [decompose_exponentUnbiased, exponentRawOf_operand, sext_sub_eq_setWidth]
  · rw [decompose_category, exponentRawOf_operand, mantissaRawOf_operand, catCode_categorize]

/-- Settles O8: the ports of the format with 5 exponent and 10 mantissa bits. -/
theorem decomposeHDrivesThePorts : Obligations.DecomposeHDrivesThePorts := fun s =>
  exec_decompose_ports .binary16 s

/-- Settles O9: the ports of the format with 8 exponent and 23 mantissa bits. -/
theorem decomposeSDrivesThePorts : Obligations.DecomposeSDrivesThePorts := fun s =>
  exec_decompose_ports .binary32 s

/-- Settles O10: the ports of the format with 11 exponent and 52 mantissa bits, whose fields fill `exp_raw`, `man_raw`
and `sig`. -/
theorem decomposeDDrivesThePorts : Obligations.DecomposeDDrivesThePorts := by
  intro s
  obtain ⟨t, hexec, hinp, herr, hsign, hexp, hman, hunb, hcat, hsub, hnorm⟩ := exec_decompose_ports .binary64 s
  exact ⟨t, hexec, hinp, herr, hsign, hexp.trans (BitVec.setWidth_eq _), hman.trans (BitVec.setWidth_eq _), hunb, hcat,
    hsub, fun h0 h1 => (hnorm h0 h1).trans (BitVec.setWidth_eq _)⟩

end Sys2Proof.Machine
end

section
/-! What DECOMPOSE reads, and the ranges of the exponent and of the significand it answers with. -/

namespace Sys2Proof.Machine

/-- Settles O17: equal patterns give equal responses and equal outputs, `sig` included (R32). -/
theorem decomposeReadsOnlyThePattern : Obligations.DecomposeReadsOnlyThePattern := by
  intro f s s' hbits
  obtain ⟨hresp, hout⟩ := doDecompose_outputs_congr (f := f) (s := s) (s' := s') hbits
  rw [doDecompose_response f s] at hresp
  refine ⟨_, _, _, exec_decompose f s, exec_decompose f s', doDecompose_response f s, hresp.symm, ?_⟩
  simp only [hout, implies_true, and_self]

/-- Zero and Subnormal have the least `exponentUnbiased` (R75). -/
theorem exponentUnbiased_of_zero_or_subnormal {f : Format} {b : Nat}
    (h : (decompose f b).category = .zero ∨ (decompose f b).category = .subnormal) :
    (decompose f b).exponentUnbiased = -(f.bias : Int) := by
  rw [decompose_category, categorize_eq_zero, categorize_eq_subnormal] at h
  have her : exponentRawOf f b = 0 := by tauto
  rw [decompose_exponentUnbiased, her]
  omega

/-- InfinityOrNaN has the greatest `exponentUnbiased` (R75). -/
theorem exponentUnbiased_of_infinityOrNaN {f : Format} {b : Nat} (h : (decompose f b).category = .infinityOrNaN) :
    (decompose f b).exponentUnbiased = (f.bias : Int) + 1 := by
  have hbias := f.bias_eq
  rw [decompose_category, categorize_eq_infinityOrNaN] at h
  rw [decompose_exponentUnbiased, h, allOnes]
  omega

/-- The exponent field of a Normal is neither 0 nor all ones (R63). -/
theorem exponentRawOf_bounds_of_normal {f : Format} {b : Nat} (h : (decompose f b).category = .normal) :
    1 ≤ exponentRawOf f b ∧ exponentRawOf f b ≤ 2 * f.bias := by
  have her := exponentRawOf_lt f b
  have hbias := f.bias_eq
  rw [decompose_category, categorize_eq_normal, allOnes] at h
  omega

/-- A Normal's `exponentUnbiased` lies strictly between the two extremes (R75). -/
theorem exponentUnbiased_bounds_of_normal {f : Format} {b : Nat} (h : (decompose f b).category = .normal) :
    1 - (f.bias : Int) ≤ (decompose f b).exponentUnbiased ∧ (decompose f b).exponentUnbiased ≤ (f.bias : Int) := by
  have her := exponentRawOf_bounds_of_normal h
  rw [decompose_exponentUnbiased]
  omega

/-- Settles O18: the port has room for the whole range, and each category has its part of it. -/
theorem exponentUnbiasedIsExact : Obligations.ExponentUnbiasedIsExact := by
  intro f s
  obtain ⟨hlo, hhi⟩ := exponentUnbiased_bounds f (patternOperand f s.inp)
  exact ⟨doDecompose f s, _, exec_decompose f s, doDecompose_response f s, rfl, fieldsPins_expUnb_toInt f _ s.inp,
    hlo, hhi, exponentUnbiased_of_zero_or_subnormal, exponentUnbiased_of_infinityOrNaN,
    exponentUnbiased_bounds_of_normal⟩

section
variable {f : Format} {b : Nat} {q : Fraction}

/-- The numerator is the mantissa field, with the implicit bit for a Normal (R67). -/
theorem mantissaFraction_num (h : (decompose f b).mantissaFraction = some q) :
    q.num = (if (decompose f b).category = .normal then 2 ^ f.mantissaBits else 0) + mantissaRawOf f b := by
  rw [decompose_mantissaFraction] at h
  rw [mantissaFractionOf_eq_some h, decompose_category]

theorem mantissaFraction_toRat (h : (decompose f b).mantissaFraction = some q) :
    q.toRat = (q.num : ℚ) / 2 ^ f.mantissaBits := by
  rw [Fraction.toRat, mantissaFraction_den h]
  norm_cast

/-- Bit `mantissaBits` of the numerator is the implicit leading bit (R67). -/
theorem mantissaFraction_num_testBit (h : (decompose f b).mantissaFraction = some q) :
    q.num.testBit f.mantissaBits = decide ((decompose f b).category = .normal) := by
  have hmr : (mantissaRawOf f b).testBit f.mantissaBits = false := Nat.testBit_lt_two_pow (mantissaRawOf_lt f b)
  rw [mantissaFraction_num h]
  split_ifs with hc
  · rw [Nat.testBit_two_pow_add_eq, hmr, decide_eq_true hc, Bool.not_false]
  · rw [Nat.zero_add, hmr, decide_eq_false hc]

theorem mantissaFraction_toRat_of_zero (h : (decompose f b).mantissaFraction = some q)
    (hc : (decompose f b).category = .zero) : q.toRat = 0 := by
  have hmr : mantissaRawOf f b = 0 := (categorize_eq_zero.mp hc).2
  have hnum : q.num = 0 := by rw [mantissaFraction_num h, hc, hmr]; rfl
  rw [mantissaFraction_toRat h, hnum, Nat.cast_zero, zero_div]

theorem mantissaFraction_toRat_of_subnormal (h : (decompose f b).mantissaFraction = some q)
    (hc : (decompose f b).category = .subnormal) : 0 < q.toRat ∧ q.toRat < 1 := by
  have hmr : mantissaRawOf f b ≠ 0 := (categorize_eq_subnormal.mp hc).2
  have hlt : mantissaRawOf f b < 2 ^ f.mantissaBits := mantissaRawOf_lt f b
  have hnum : q.num = mantissaRawOf f b := by rw [mantissaFraction_num h, hc]; exact Nat.zero_add _
  rw [mantissaFraction_toRat h, hnum, div_lt_one (by positivity)]
  exact ⟨by positivity, by exact_mod_cast hlt⟩

theorem mantissaFraction_toRat_of_normal (h : (decompose f b).mantissaFraction = some q)
    (hc : (decompose f b).category = .normal) : 1 ≤ q.toRat ∧ q.toRat < 2 := by
  have hge : 2 ^ f.mantissaBits ≤ q.num := by rw [mantissaFraction_num h, if_pos hc]; exact Nat.le_add_right _ _
  have hlt : q.num < 2 * 2 ^ f.mantissaBits := by rw [← pow_succ']; exact mantissaFraction_num_lt h
  rw [mantissaFraction_toRat h, le_div_iff₀ (by positivity), div_lt_iff₀ (by positivity), one_mul]
  exact ⟨by exact_mod_cast hge, by exact_mod_cast hlt⟩

end

/-- Settles O19: `sig` is the numerator, whose range and top bit follow from the category. -/
theorem significandPortCarriesTheFraction : Obligations.SignificandPortCarriesTheFraction := by
  intro f s
  refine ⟨doDecompose f s, _, exec_decompose f s, doDecompose_response f s, mantissaFractionOf_eq_none_iff.symm,
    fun q hq => ⟨fieldsPins_sig_toRat s.inp hq, ?_, mantissaFraction_toRat_of_zero hq,
      mantissaFraction_toRat_of_subnormal hq, mantissaFraction_toRat_of_normal hq⟩⟩
  rw [doDecompose_eq, answerFields_out, BitVec.getLsbD, fieldsPins_sig_toNat s.inp hq, mantissaFraction_num_testBit hq]

end Sys2Proof.Machine
end

section
/-! The raw fields and the pattern: reassembly, sign symmetry, and the patterns of each category. -/

namespace Sys2Proof.Machine

/-- The pattern with given raw fields (R52). -/
def reassemble (f : Format) (sg er mr : Nat) : Nat :=
  sg * 2 ^ (f.exponentBits + f.mantissaBits) + er * 2 ^ f.mantissaBits + mr

/-- The fields of a reassembled pattern, in range, are the given ones (R73 a). -/
theorem fields_reassemble {f : Format} {sg er mr : Nat} (hsg : sg < 2) (her : er < 2 ^ f.exponentBits)
    (hmr : mr < 2 ^ f.mantissaBits) :
    signOf f (reassemble f sg er mr) = sg ∧ exponentRawOf f (reassemble f sg er mr) = er ∧
      mantissaRawOf f (reassemble f sg er mr) = mr := fields_of_reassembled f hsg her hmr

theorem totalBits_eq_succ (f : Format) : f.totalBits = f.exponentBits + f.mantissaBits + 1 := by
  rw [f.totalBits_eq]; omega

theorem reassemble_lt {f : Format} {sg er mr : Nat} (hsg : sg < 2) (her : er < 2 ^ f.exponentBits)
    (hmr : mr < 2 ^ f.mantissaBits) : reassemble f sg er mr < 2 ^ f.totalBits := by
  have hlow : er * 2 ^ f.mantissaBits + mr < 2 ^ (f.exponentBits + f.mantissaBits) :=
    calc er * 2 ^ f.mantissaBits + mr < (er + 1) * 2 ^ f.mantissaBits := by rw [Nat.succ_mul]; omega
      _ ≤ 2 ^ f.exponentBits * 2 ^ f.mantissaBits := Nat.mul_le_mul_right _ her
      _ = _ := (pow_add _ _ _).symm
  rw [totalBits_eq_succ, pow_succ, reassemble]
  obtain rfl | rfl : sg = 0 ∨ sg = 1 := by omega
  all_goals omega

/-- A pattern is reassembled from its raw fields (R73 b). -/
theorem reassemble_fields {f : Format} {b : Nat} (hb : b < 2 ^ f.totalBits) :
    reassemble f (signOf f b) (exponentRawOf f b) (mantissaRawOf f b) = b := by
  have hsign : b / 2 ^ f.mantissaBits / 2 ^ f.exponentBits < 2 := by
    rw [Nat.div_div_eq_div_mul, ← pow_add, Nat.div_lt_iff_lt_mul (Nat.two_pow_pos _), ← pow_succ']
    rwa [totalBits_eq_succ, Nat.add_comm f.exponentBits] at hb
  rw [reassemble, signOf_eq, exponentRawOf_eq, mantissaRawOf_eq, Nat.add_comm f.exponentBits, pow_add,
    ← Nat.div_div_eq_div_mul, Nat.mod_eq_of_lt hsign, ← mul_assoc, Nat.mul_right_comm, ← Nat.add_mul,
    Nat.div_add_mod', Nat.div_add_mod']

/-- Settles O15: the fields are the quotients and remainders of the pattern by the powers of two of the format. -/
theorem fieldsReassembleThePattern : Obligations.FieldsReassembleThePattern := by
  intro f e m
  refine ⟨fun b hb => reassemble_fields hb, fun b b' hb hb' hsg her hmr => ?_, fun sg er mr hsg her hmr =>
    ⟨reassemble_lt hsg her hmr, fields_reassemble hsg her hmr⟩⟩
  rw [decompose_sign, decompose_sign] at hsg
  rw [decompose_exponentRaw, decompose_exponentRaw] at her
  rw [decompose_mantissaRaw, decompose_mantissaRaw] at hmr
  rw [← reassemble_fields hb, hsg, her, hmr, reassemble_fields hb']

/-- Patterns that differ in the sign alone have the same other fields, the derived ones included (R58). -/
theorem decompose_eq_with_sign {f : Format} {b b' : Nat}
    (h : b' % 2 ^ (f.totalBits - 1) = b % 2 ^ (f.totalBits - 1)) :
    decompose f b' = { decompose f b with sign := signOf f b' } := by
  have her : exponentRawOf f b' = exponentRawOf f b := by
    rw [← exponentRawOf_mod_sign, h, exponentRawOf_mod_sign]
  have hmr : mantissaRawOf f b' = mantissaRawOf f b := by
    rw [← mantissaRawOf_mod_sign, h, mantissaRawOf_mod_sign]
  simp only [decompose, her, hmr]

theorem xor_two_pow_mod (b n : Nat) : (b ^^^ 2 ^ n) % 2 ^ n = b % 2 ^ n := by
  rw [Nat.xor_mod_two_pow, Nat.mod_self, Nat.xor_zero]

/-- The top bit is the sign (R59). -/
theorem signOf_xor_top (f : Format) (b : Nat) : signOf f (b ^^^ 2 ^ (f.totalBits - 1)) = 1 - signOf f b := by
  have htop : f.totalBits - 1 = f.exponentBits + f.mantissaBits := by rw [totalBits_eq_succ]; rfl
  have hdiv : (b ^^^ 2 ^ (f.exponentBits + f.mantissaBits)) / 2 ^ (f.exponentBits + f.mantissaBits) =
      b / 2 ^ (f.exponentBits + f.mantissaBits) ^^^ 1 := by
    rw [Nat.xor_div_two_pow, Nat.div_self (Nat.two_pow_pos _)]
  rw [signOf_eq, signOf_eq, htop, hdiv, Nat.xor_mod_two_eq]
  omega

/-- Settles O16: the flip leaves the bits below the top one, and with them every field but the sign (R73 c). -/
theorem signSymmetry : Obligations.SignSymmetry := by
  intro f b _ d
  rw [decompose_eq_with_sign (xor_two_pow_mod b _), signOf_xor_top]
  rfl

/-- Settles O13: the predicate of a category is the test that gives it (R63), with the range of its fields written out. -/
theorem categoriesPartitionThePatterns : Obligations.CategoriesPartitionThePatterns := by
  intro f b _ d holds c
  have her := exponentRawOf_lt f b
  have hmr := mantissaRawOf_lt f b
  rw [eq_comm, decompose_category]
  cases c with
  | zero => exact categorize_eq_zero.symm
  | subnormal =>
    rw [categorize_eq_subnormal]
    simp only [holds, d, decompose_exponentRaw, decompose_mantissaRaw]
    omega
  | normal =>
    rw [categorize_eq_normal, allOnes]
    simp only [holds, d, decompose_exponentRaw]
    omega
  | infinityOrNaN => exact categorize_eq_infinityOrNaN.symm

/-- The exponent and mantissa fields of a category. -/
def fieldsOf (f : Format) (c : Category) : Finset (Nat × Nat) :=
  (Finset.range (2 ^ f.exponentBits) ×ˢ Finset.range (2 ^ f.mantissaBits)).filter fun x => categorize f x.1 x.2 = c

theorem mem_fieldsOf {f : Format} {c : Category} {er mr : Nat} :
    (er, mr) ∈ fieldsOf f c ↔ (er < 2 ^ f.exponentBits ∧ mr < 2 ^ f.mantissaBits) ∧ categorize f er mr = c := by
  rw [fieldsOf, Finset.mem_filter, Finset.mem_product, Finset.mem_range, Finset.mem_range]

/-- Each choice of fields is that of two patterns, one for each sign (R73). -/
theorem card_category (f : Format) (c : Category) :
    ((Finset.range (2 ^ f.totalBits)).filter fun b => (decompose f b).category = c).card =
      2 * (fieldsOf f c).card := by
  have hcard : (Finset.range 2 ×ˢ fieldsOf f c).card = 2 * (fieldsOf f c).card := by
    rw [Finset.card_product, Finset.card_range]
  rw [← hcard]
  refine Finset.card_nbij' (fun b => (signOf f b, exponentRawOf f b, mantissaRawOf f b))
    (fun x => reassemble f x.1 x.2.1 x.2.2) ?_ ?_ ?_ ?_
  · intro b hb
    obtain ⟨-, hc⟩ := Finset.mem_filter.mp hb
    exact Finset.mem_product.mpr ⟨Finset.mem_range.mpr (signOf_lt f b),
      mem_fieldsOf.mpr ⟨⟨exponentRawOf_lt f b, mantissaRawOf_lt f b⟩, hc⟩⟩
  · rintro ⟨sg, er, mr⟩ hx
    obtain ⟨hsg, hmem⟩ := Finset.mem_product.mp hx
    obtain ⟨⟨her, hmr⟩, hc⟩ := mem_fieldsOf.mp hmem
    obtain ⟨-, her', hmr'⟩ := fields_reassemble (Finset.mem_range.mp hsg) her hmr
    refine Finset.mem_filter.mpr ⟨Finset.mem_range.mpr (reassemble_lt (Finset.mem_range.mp hsg) her hmr), ?_⟩
    rw [decompose_category, her', hmr', hc]
  · intro b hb
    obtain ⟨hlt, -⟩ := Finset.mem_filter.mp hb
    exact reassemble_fields (Finset.mem_range.mp hlt)
  · rintro ⟨sg, er, mr⟩ hx
    obtain ⟨hsg, hmem⟩ := Finset.mem_product.mp hx
    obtain ⟨⟨her, hmr⟩, -⟩ := mem_fieldsOf.mp hmem
    obtain ⟨hsg', her', hmr'⟩ := fields_reassemble (Finset.mem_range.mp hsg) her hmr
    simp only [hsg', her', hmr']

theorem fieldsOf_zero (f : Format) : fieldsOf f .zero = {((0, 0) : Nat × Nat)} := by
  have he := Nat.two_pow_pos f.exponentBits
  have hm := Nat.two_pow_pos f.mantissaBits
  ext ⟨er, mr⟩
  rw [mem_fieldsOf, categorize_eq_zero, Finset.mem_singleton, Prod.mk.injEq]
  omega

theorem fieldsOf_subnormal (f : Format) : fieldsOf f .subnormal = {0} ×ˢ Finset.Ico 1 (2 ^ f.mantissaBits) := by
  have he := Nat.two_pow_pos f.exponentBits
  ext ⟨er, mr⟩
  rw [mem_fieldsOf, categorize_eq_subnormal, Finset.mem_product, Finset.mem_singleton, Finset.mem_Ico]
  omega

theorem fieldsOf_infinityOrNaN (f : Format) :
    fieldsOf f .infinityOrNaN = {allOnes f.exponentBits} ×ˢ Finset.range (2 ^ f.mantissaBits) := by
  have he := allOnes_lt f.exponentBits
  ext ⟨er, mr⟩
  rw [mem_fieldsOf, categorize_eq_infinityOrNaN, Finset.mem_product, Finset.mem_singleton, Finset.mem_range]
  omega

theorem fieldsOf_normal (f : Format) :
    fieldsOf f .normal = Finset.Ico 1 (2 ^ f.exponentBits - 1) ×ˢ Finset.range (2 ^ f.mantissaBits) := by
  ext ⟨er, mr⟩
  rw [mem_fieldsOf, categorize_eq_normal, allOnes, Finset.mem_product, Finset.mem_Ico, Finset.mem_range]
  omega

/-- Settles O14: a category has two patterns for each choice of its fields, and its fields are a rectangle. -/
theorem categoryCounts : Obligations.CategoryCounts := by
  intro f count
  have hcount : ∀ c, count c = 2 * (fieldsOf f c).card := card_category f
  refine ⟨?_, ?_, ?_, ?_⟩
  · rw [hcount, fieldsOf_zero, Finset.card_singleton]
  · rw [hcount, fieldsOf_subnormal, Finset.card_product, Finset.card_singleton, Nat.card_Ico, one_mul]
  · rw [hcount, fieldsOf_infinityOrNaN, Finset.card_product, Finset.card_singleton, Finset.card_range, one_mul]
  · rw [hcount, fieldsOf_normal, Finset.card_product, Nat.card_Ico, Finset.card_range, Nat.sub_sub, mul_assoc]

end Sys2Proof.Machine
end

section
/-! The values of the finite patterns, all whole multiples of the smallest subnormal. -/

namespace Sys2Proof.Machine

/-- The value of the smallest subnormal (R71). -/
def leastValue (f : Format) : ℚ := 2 ^ (1 - (f.bias : Int) - (f.mantissaBits : Int))

/-- The value of a finite pattern without its sign, in units of the smallest subnormal. -/
def magnitude (f : Format) (er mr : Nat) : Nat :=
  if er = 0 then mr else (2 ^ f.mantissaBits + mr) * 2 ^ (er - 1)

theorem leastValue_pos (f : Format) : 0 < leastValue f := zpow_pos (by norm_num) _

theorem magnitude_zero (f : Format) (mr : Nat) : magnitude f 0 mr = mr := rfl

theorem magnitude_of_pos {f : Format} {er : Nat} (h : 1 ≤ er) (mr : Nat) :
    magnitude f er mr = (2 ^ f.mantissaBits + mr) * 2 ^ (er - 1) := if_neg (by omega)

/-- A significand scaled by a power of two, in units of the smallest subnormal. -/
theorem significand_scaled (f : Format) (j S : Nat) :
    (2 : ℚ) ^ (1 - (f.bias : Int) + j) * ((S : ℚ) / 2 ^ f.mantissaBits) = ((S * 2 ^ j : Nat) : ℚ) * leastValue f := by
  rw [leastValue, zpow_add₀ two_ne_zero, zpow_sub₀ two_ne_zero _ (f.mantissaBits : Int), zpow_natCast, zpow_natCast]
  push_cast
  ring

theorem scaled_eq {f : Format} {b : Nat} {q : Fraction} (h : (decompose f b).mantissaFraction = some q) (j : Nat) :
    scaled (decompose f b) (1 - (f.bias : Int) + j) =
      some ((-1) ^ signOf f b * (((q.num * 2 ^ j : Nat) : ℚ) * leastValue f)) := by
  rw [scaled, h, Option.map_some, mantissaFraction_toRat h, mul_assoc, significand_scaled, decompose_sign]

/-- The value of a finite pattern (R71): its sign times its magnitude. -/
theorem val_decompose {f : Format} {b : Nat} (hfin : (decompose f b).category ≠ .infinityOrNaN) :
    val f (decompose f b) =
      some ((-1) ^ signOf f b * ((magnitude f (exponentRawOf f b) (mantissaRawOf f b) : ℚ) * leastValue f)) := by
  obtain ⟨q, hq⟩ := Option.ne_none_iff_exists'.mp (mt mantissaFractionOf_eq_none_iff.mp hfin)
  have hnum := mantissaFraction_num hq
  cases hc : (decompose f b).category with
  | zero =>
    obtain ⟨her, hmr⟩ := categorize_eq_zero.mp hc
    rw [val, hc, her, hmr, magnitude_zero, Nat.cast_zero, zero_mul, mul_zero]
  | subnormal =>
    obtain ⟨her, -⟩ := categorize_eq_subnormal.mp hc
    rw [hc, if_neg (by decide), Nat.zero_add] at hnum
    have hscaled := scaled_eq hq 0
    rw [Nat.cast_zero, add_zero, pow_zero, mul_one, hnum] at hscaled
    rw [val, hc, her, magnitude_zero]
    exact hscaled
  | normal =>
    obtain ⟨her, -⟩ := exponentRawOf_bounds_of_normal hc
    rw [hc, if_pos rfl] at hnum
    have hk : (decompose f b).exponentUnbiased = 1 - (f.bias : Int) + (exponentRawOf f b - 1 : Nat) := by
      rw [decompose_exponentUnbiased]
      omega
    rw [val, hc, magnitude_of_pos her, ← hnum, ← scaled_eq hq, ← hk]
  | infinityOrNaN => exact absurd hc hfin

/-- The magnitudes at one exponent field lie below those at the next. -/
theorem magnitude_lt {f : Format} {mr : Nat} (hmr : mr < 2 ^ f.mantissaBits) (er : Nat) :
    magnitude f er mr < 2 ^ f.mantissaBits * 2 ^ er := by
  cases er with
  | zero => rwa [magnitude_zero, pow_zero, mul_one]
  | succ k =>
    rw [magnitude_of_pos (by omega), Nat.add_sub_cancel, pow_succ', ← mul_assoc]
    exact Nat.mul_lt_mul_of_pos_right (by omega) (Nat.two_pow_pos k)

theorem le_magnitude {f : Format} {er : Nat} (her : 1 ≤ er) (mr : Nat) :
    2 ^ f.mantissaBits * 2 ^ (er - 1) ≤ magnitude f er mr := by
  rw [magnitude_of_pos her]
  exact Nat.mul_le_mul_right _ (Nat.le_add_right _ _)

theorem magnitude_lt_of_mantissa_lt {f : Format} (er : Nat) {mr mr' : Nat} (h : mr < mr') :
    magnitude f er mr < magnitude f er mr' := by
  cases er with
  | zero => exact h
  | succ k =>
    rw [magnitude_of_pos (by omega), magnitude_of_pos (by omega)]
    exact Nat.mul_lt_mul_of_pos_right (by omega) (Nat.two_pow_pos _)

theorem magnitude_lt_of_exponent_lt {f : Format} {er er' mr : Nat} (hmr : mr < 2 ^ f.mantissaBits) (h : er < er')
    (mr' : Nat) : magnitude f er mr < magnitude f er' mr' :=
  calc magnitude f er mr < 2 ^ f.mantissaBits * 2 ^ er := magnitude_lt hmr er
    _ ≤ 2 ^ f.mantissaBits * 2 ^ (er' - 1) := Nat.mul_le_mul_left _ (Nat.pow_le_pow_right (by norm_num) (by omega))
    _ ≤ magnitude f er' mr' := le_magnitude (by omega) mr'

/-- Magnitudes are ordered as the patterns are: by the exponent field, then by the mantissa field. -/
theorem magnitude_strictMono (f : Format) :
    StrictMono fun b : Nat => magnitude f (b / 2 ^ f.mantissaBits) (b % 2 ^ f.mantissaBits) := by
  intro b b' hlt
  dsimp only
  obtain heq | hne := eq_or_ne (b / 2 ^ f.mantissaBits) (b' / 2 ^ f.mantissaBits)
  · rw [heq]
    apply magnitude_lt_of_mantissa_lt
    have hb := Nat.div_add_mod b (2 ^ f.mantissaBits)
    have hb' := Nat.div_add_mod b' (2 ^ f.mantissaBits)
    rw [heq] at hb
    omega
  · exact magnitude_lt_of_exponent_lt (Nat.mod_lt _ (Nat.two_pow_pos _))
      (lt_of_le_of_ne (Nat.div_le_div_right hlt.le) hne) _

/-- The value of a finite pattern with sign 0. -/
theorem val_of_sign_zero {f : Format} {b : Nat} (hb : b < 2 ^ (f.totalBits - 1))
    (hfin : (decompose f b).category ≠ .infinityOrNaN) :
    val f (decompose f b) =
      some ((magnitude f (b / 2 ^ f.mantissaBits) (b % 2 ^ f.mantissaBits) : ℚ) * leastValue f) := by
  rw [totalBits_eq_succ, Nat.add_sub_cancel] at hb
  have hsign : signOf f b = 0 := by rw [signOf_eq, Nat.div_eq_of_lt hb]
  have her : exponentRawOf f b = b / 2 ^ f.mantissaBits := by
    rw [exponentRawOf_eq, Nat.mod_eq_of_lt]
    rwa [Nat.div_lt_iff_lt_mul (Nat.two_pow_pos _), ← pow_add]
  rw [val_decompose hfin, hsign, her, mantissaRawOf_eq, pow_zero, one_mul]

/-- Settles O21: the magnitudes are strictly increasing in the pattern, and the unit is positive. -/
theorem valueOrderFollowsPatternOrder : Obligations.ValueOrderFollowsPatternOrder := by
  intro f b b' hb hb' hfin hfin'
  refine ⟨_, _, val_of_sign_zero hb hfin, val_of_sign_zero hb' hfin', ?_⟩
  rw [mul_lt_mul_iff_left₀ (leastValue_pos f), Nat.cast_lt]
  exact (magnitude_strictMono f).lt_iff_lt.symm

/-- The magnitude of the largest finite pattern bounds every other. -/
theorem magnitude_le_greatest {f : Format} {er mr : Nat} (h1 : 1 ≤ er) (her : er ≤ 2 * f.bias)
    (hmr : mr < 2 ^ f.mantissaBits) : magnitude f er mr ≤ magnitude f (2 * f.bias) (2 ^ f.mantissaBits - 1) := by
  rw [magnitude_of_pos h1, magnitude_of_pos (h1.trans her)]
  exact Nat.mul_le_mul (by omega) (Nat.pow_le_pow_right (by norm_num) (by omega))

/-- The smallest normal value is `2^(1-bias)` (R71). -/
theorem smallest_normal_value (f : Format) :
    ((2 ^ f.mantissaBits : Nat) : ℚ) * leastValue f = 2 ^ (1 - (f.bias : Int)) := by
  rw [leastValue, zpow_sub₀ two_ne_zero _ (f.mantissaBits : Int), zpow_natCast, Nat.cast_pow, Nat.cast_ofNat,
    mul_div_cancel₀ _ (by positivity)]

theorem bias_pos (f : Format) : 1 ≤ f.bias := by cases f <;> decide

/-- The largest finite value is `(2 - 2^-m) 2^bias` (R71). -/
theorem largest_finite_value (f : Format) :
    (magnitude f (2 * f.bias) (2 ^ f.mantissaBits - 1) : ℚ) * leastValue f =
      (2 - 2 ^ (-(f.mantissaBits : Int))) * 2 ^ f.bias := by
  have hbias := bias_pos f
  have hm := Nat.two_pow_pos f.mantissaBits
  have hk : 1 - (f.bias : Int) + (2 * f.bias - 1 : Nat) = f.bias := by omega
  have hS : ((2 ^ f.mantissaBits + (2 ^ f.mantissaBits - 1) : Nat) : ℚ) = 2 * 2 ^ f.mantissaBits - 1 := by
    rw [Nat.cast_add, Nat.cast_sub hm]
    push_cast
    ring
  rw [magnitude_of_pos (by omega), ← significand_scaled, hk, hS, zpow_natCast, zpow_neg, zpow_natCast, sub_div,
    mul_div_cancel_right₀ _ (by positivity), one_div, mul_comm]

/-- The value of a positive finite pattern given by its raw fields. -/
theorem val_reassemble {f : Format} {er mr : Nat} (her : er < allOnes f.exponentBits) (hmr : mr < 2 ^ f.mantissaBits) :
    val f (decompose f (reassemble f 0 er mr)) = some ((magnitude f er mr : ℚ) * leastValue f) := by
  obtain ⟨hsg', her', hmr'⟩ := fields_reassemble (f := f) Nat.two_pos (her.trans (allOnes_lt _)) hmr
  have hfin : (decompose f (reassemble f 0 er mr)).category ≠ .infinityOrNaN := by
    rw [decompose_category, her', Ne, categorize_eq_infinityOrNaN]
    exact her.ne
  rw [val_decompose hfin, hsg', her', hmr', pow_zero, one_mul]

theorem val_smallest_subnormal (f : Format) : val f (decompose f 1) = some (leastValue f) := by
  have hval := val_reassemble (f := f) (er := 0) (mr := 1) (by have := allOnes_exponentBits_pos f; omega)
    (by cases f <;> decide)
  rwa [magnitude_zero, Nat.cast_one, one_mul, reassemble, Nat.zero_mul, Nat.zero_mul] at hval

theorem val_smallest_normal (f : Format) :
    val f (decompose f (2 ^ f.mantissaBits)) = some (2 ^ (1 - (f.bias : Int))) := by
  have hval := val_reassemble (f := f) (er := 1) (mr := 0) (by have := allOnes_exponentBits_pos f; omega)
    (Nat.two_pow_pos _)
  rwa [magnitude_of_pos le_rfl, Nat.add_zero, Nat.sub_self, pow_zero, mul_one, smallest_normal_value, reassemble,
    Nat.zero_mul, Nat.one_mul, Nat.zero_add, Nat.add_zero] at hval

theorem val_largest_finite (f : Format) :
    val f (decompose f ((2 ^ f.exponentBits - 1) * 2 ^ f.mantissaBits - 1)) =
      some ((2 - 2 ^ (-(f.mantissaBits : Int))) * 2 ^ f.bias) := by
  have hbias := f.bias_eq
  have hm := Nat.two_pow_pos f.mantissaBits
  have hval := val_reassemble (f := f) (er := 2 * f.bias) (mr := 2 ^ f.mantissaBits - 1)
    (by rw [allOnes]; omega) (by omega)
  have hpattern : (2 ^ f.exponentBits - 1) * 2 ^ f.mantissaBits - 1 =
      reassemble f 0 (2 * f.bias) (2 ^ f.mantissaBits - 1) := by
    rw [show 2 ^ f.exponentBits - 1 = 2 * f.bias + 1 by omega, Nat.succ_mul, reassemble]
    omega
  rw [hpattern, hval, largest_finite_value]

/-- A subnormal's value lies from the smallest subnormal up to, but not including, the smallest normal (R71). -/
theorem val_of_subnormal {f : Format} {b : Nat} (hc : (decompose f b).category = .subnormal) :
    ∃ v : ℚ, val f (decompose f b) = some ((-1) ^ (decompose f b).sign * v) ∧ leastValue f ≤ v ∧
      v < 2 ^ (1 - (f.bias : Int)) := by
  obtain ⟨her, hmr⟩ := categorize_eq_subnormal.mp hc
  have hunit := leastValue_pos f
  have hlo : 1 ≤ mantissaRawOf f b := Nat.one_le_iff_ne_zero.mpr hmr
  have hhi := mantissaRawOf_lt f b
  refine ⟨_, val_decompose (by rw [hc]; decide), ?_, ?_⟩
  · rw [her, magnitude_zero]
    exact le_mul_of_one_le_left hunit.le (by exact_mod_cast hlo)
  · rw [her, magnitude_zero, ← smallest_normal_value]
    exact mul_lt_mul_of_pos_right (by exact_mod_cast hhi) hunit

/-- A normal's value lies from the smallest normal to the largest finite value (R71). -/
theorem val_of_normal {f : Format} {b : Nat} (hc : (decompose f b).category = .normal) :
    ∃ v : ℚ, val f (decompose f b) = some ((-1) ^ (decompose f b).sign * v) ∧ 2 ^ (1 - (f.bias : Int)) ≤ v ∧
      v ≤ (2 - 2 ^ (-(f.mantissaBits : Int))) * 2 ^ f.bias := by
  obtain ⟨h1, her⟩ := exponentRawOf_bounds_of_normal hc
  have hunit := leastValue_pos f
  have hlo : 2 ^ f.mantissaBits ≤ magnitude f (exponentRawOf f b) (mantissaRawOf f b) :=
    (Nat.le_mul_of_pos_right _ (Nat.two_pow_pos _)).trans (le_magnitude h1 _)
  have hhi := magnitude_le_greatest h1 her (mantissaRawOf_lt f b)
  refine ⟨_, val_decompose (by rw [hc]; decide), ?_, ?_⟩
  · rw [← smallest_normal_value]
    exact mul_le_mul_of_nonneg_right (by exact_mod_cast hlo) hunit.le
  · rw [← largest_finite_value]
    exact mul_le_mul_of_nonneg_right (by exact_mod_cast hhi) hunit.le

/-- Settles O20: values are magnitudes in units of the smallest subnormal, so their ranges are ranges of integers. -/
theorem valueRangesAndExtremes : Obligations.ValueRangesAndExtremes := by
  intro f
  refine ⟨val_smallest_subnormal f, val_smallest_normal f, val_largest_finite f, fun b _ =>
    ⟨fun hc => ?_, fun hc => ?_, val_of_subnormal, val_of_normal⟩⟩
  · rw [val, hc]
  · rw [val, hc]

end Sys2Proof.Machine
end

section
/-! PARSEHEX on texts given by position, and on the ports. -/

namespace Sys2Proof.Machine

/-- The digits of a spelling by position (R50). -/
theorem spellDigits_getElem? (upper : Nat → Bool) {n k : Nat} (b : Nat) (hk : k < n) :
    (spellDigits upper n b)[k]? = some (hexChar (upper (n - 1 - k)) (b / 16 ^ (n - 1 - k) % 16)) := by
  induction n generalizing k with
  | zero => omega
  | succ n ih =>
    rw [spellDigits]
    cases k with
    | zero => rfl
    | succ k =>
      have hindex : n + 1 - 1 - (k + 1) = n - 1 - k := by omega
      rw [List.getElem?_cons_succ, ih (by omega), hindex]

/-- A digit text that accumulates to `b` has the base-16 digits of `b`, most significant first (R50). -/
theorem hexVal_of_accumulate {b k : Nat} {d : Text} (h : accumulate 0 d = some b) (hk : k < d.length) :
    (d[k]?).bind hexVal = some (b / 16 ^ (d.length - 1 - k) % 16) := by
  obtain ⟨upper, hd⟩ := exists_eq_spellDigits h
  have hdigit := spellDigits_getElem? upper b hk
  rw [← hd] at hdigit
  rw [hdigit, Option.bind_some]
  exact hexVal_hexChar _ ⟨_, Nat.mod_lt _ (by norm_num)⟩

/-- A value is the sum of its base-16 digits by significance (R50). -/
theorem sum_hex_digits (n b : Nat) : ∑ k ∈ Finset.range n, b / 16 ^ k % 16 * 16 ^ k = b % 16 ^ n := by
  induction n with
  | zero => rw [Finset.range_zero, Finset.sum_empty, pow_zero, Nat.mod_one]
  | succ n ih => rw [Finset.sum_range_succ, ih, pow_succ, Nat.mod_mul, Nat.mul_comm (16 ^ n)]

theorem sum_hex_digits_of_lt {n b : Nat} (h : b < 16 ^ n) :
    b = ∑ k ∈ Finset.range n, b / 16 ^ (n - 1 - k) % 16 * 16 ^ (n - 1 - k) := by
  rw [Finset.sum_range_reflect (fun k => b / 16 ^ k % 16 * 16 ^ k), sum_hex_digits, Nat.mod_eq_of_lt h]

/-- `n` hex digits after any of the three prefixes are read as one pattern, the same for each (R49, R56). -/
theorem exists_parseHex_ok {f : Format} {d : Text} (hlen : d.length = f.hexDigits)
    (hd : ∀ c ∈ d, isHex c = true) :
    ∃ b, b < 2 ^ f.totalBits ∧ accumulate 0 d = some b ∧ ∀ pre : Prefix, parseHex f (pre.chars ++ d) = .ok b := by
  obtain ⟨b, hacc⟩ := exists_accumulate_iff.mpr hd
  have hok : ∀ pre : Prefix, parseHex f (pre.chars ++ d) = .ok b := fun pre =>
    parseHex_eq_ok_iff.mpr (by rw [stripPrefix_prefix pre hd]; exact ⟨hlen, hacc⟩)
  exact ⟨b, parseHex_ok_lt (hok .none), hacc, hok⟩

/-- Settles O28: what is accumulated is what the prefix leaves of the text (R56). -/
theorem prefixChangesNothing : Obligations.PrefixChangesNothing := by
  intro f digits pre s hlen hd
  obtain ⟨b, -, -, hok⟩ := exists_parseHex_ok hlen hd
  exact ⟨b, ask_parseHex_eq_ok_iff.mpr (hok .none), ask_parseHex_eq_ok_iff.mpr (hok pre)⟩

/-- A text PARSEHEX reads is one of the three prefixes and `n` hex digits (R49). -/
theorem exists_prefix_of_parseHex_ok {f : Format} {t : Text} {b : Nat} (h : parseHex f t = .ok b) :
    ∃ (pre : Prefix) (d : Text), t = pre.chars ++ d ∧ d.length = f.hexDigits ∧ ∀ c ∈ d, isHex c = true := by
  obtain ⟨pre, ht⟩ := eq_prefix_append_stripPrefix t
  obtain ⟨hlen, hacc⟩ := parseHex_eq_ok_iff.mp h
  exact ⟨pre, stripPrefix t, ht, hlen, exists_accumulate_iff.mp ⟨b, hacc⟩⟩

/-- Hex digits from position `p` on, position by position. -/
def HexFrom (t : Text) (p n : Nat) : Prop := ∀ i, p ≤ i → i < p + n → ∃ c, t[i]? = some c ∧ isHex c = true

theorem hexFrom_append {a d : Text} : HexFrom (a ++ d) a.length d.length ↔ ∀ c ∈ d, isHex c = true := by
  constructor
  · intro h c hc
    obtain ⟨k, hk, rfl⟩ := List.mem_iff_getElem.mp hc
    obtain ⟨c', hc', hhex⟩ := h (a.length + k) (by omega) (by omega)
    rw [List.getElem?_append_right (by omega), Nat.add_sub_cancel_left, List.getElem?_eq_getElem hk,
      Option.some_inj] at hc'
    rwa [hc']
  · intro h i hlo hhi
    have hi : i - a.length < d.length := by omega
    exact ⟨d[i - a.length], by rw [List.getElem?_append_right hlo, List.getElem?_eq_getElem hi],
      h _ (List.getElem_mem hi)⟩

/-- The text is `n` hex digits (R49). -/
def Unprefixed (n : Nat) (t : Text) : Prop := t.length = n ∧ HexFrom t 0 n

/-- The text is `0x` or `0X` and `n` hex digits (R49). -/
def Prefixed (n : Nat) (t : Text) : Prop :=
  t.length = n + 2 ∧ t[0]? = some 0x30#8 ∧ (∃ c, t[1]? = some c ∧ isPrefixX c = true) ∧ HexFrom t 2 n

theorem unprefixed_iff {n : Nat} {t : Text} : Unprefixed n t ↔ t.length = n ∧ ∀ c ∈ t, isHex c = true := by
  refine and_congr_right fun hlen => ?_
  rw [← hlen]
  exact hexFrom_append (a := [])

theorem prefixed_iff {n : Nat} {t : Text} :
    Prefixed n t ↔
      ∃ pre d, (pre = Prefix.lowerX ∨ pre = Prefix.upperX) ∧ t = pre.chars ++ d ∧ d.length = n ∧
        ∀ c ∈ d, isHex c = true := by
  constructor
  · rintro ⟨hlen, h0, ⟨x, h1, hx⟩, hdigits⟩
    obtain _ | ⟨c, _ | ⟨c', d⟩⟩ := t
    · cases h0
    · cases h1
    · obtain rfl : c = 0x30#8 := Option.some.inj h0
      obtain rfl : c' = x := Option.some.inj h1
      obtain rfl : d.length = n := Nat.add_right_cancel (m := 2) hlen
      have hd := (hexFrom_append (a := [0x30#8, c'])).mp hdigits
      rw [isPrefixX, Bool.or_eq_true, beq_iff_eq, beq_iff_eq] at hx
      obtain rfl | rfl := hx
      · exact ⟨.lowerX, d, .inl rfl, rfl, rfl, hd⟩
      · exact ⟨.upperX, d, .inr rfl, rfl, rfl, hd⟩
  · rintro ⟨pre, d, hpre, rfl, rfl, hd⟩
    obtain rfl | rfl := hpre
    · exact ⟨rfl, rfl, ⟨_, rfl, rfl⟩, hexFrom_append.mpr hd⟩
    · exact ⟨rfl, rfl, ⟨_, rfl, rfl⟩, hexFrom_append.mpr hd⟩

/-- The value of the `n` digits from position `p` on, as a sum and digit by digit (R50). -/
def AssembledFrom (t : Text) (p n b : Nat) : Prop :=
  ∃ v : Nat → Nat, (∀ k, k < n → (t[p + k]?).bind hexVal = some (v k)) ∧
    b = ∑ k ∈ Finset.range n, v k * 16 ^ (n - 1 - k) ∧ ∀ k, k < n → b / 16 ^ (n - 1 - k) % 16 = v k

theorem assembledFrom_append {a d : Text} {b : Nat} (h : accumulate 0 d = some b) (hb : b < 16 ^ d.length) :
    AssembledFrom (a ++ d) a.length d.length b := by
  refine ⟨fun k => b / 16 ^ (d.length - 1 - k) % 16, fun k hk => ?_, sum_hex_digits_of_lt hb, fun k _ => rfl⟩
  rw [List.getElem?_append_right (by omega), Nat.add_sub_cancel_left, hexVal_of_accumulate h hk]

/-- `n` hex digits after a prefix are read as the pattern they assemble to (R49, R50). -/
theorem parseHex_assembled {f : Format} (pre : Prefix) {d : Text} (hlen : d.length = f.hexDigits)
    (hd : ∀ c ∈ d, isHex c = true) :
    ∃ b, parseHex f (pre.chars ++ d) = .ok b ∧ b < 2 ^ f.totalBits ∧
      AssembledFrom (pre.chars ++ d) pre.chars.length f.hexDigits b := by
  obtain ⟨b, hb, hacc, hok⟩ := exists_parseHex_ok hlen hd
  refine ⟨b, hok pre, hb, ?_⟩
  rw [← f.sixteen_pow_hexDigits, ← hlen] at hb
  rw [← hlen]
  exact assembledFrom_append hacc hb

theorem parseHex_eq_err_of_neither {f : Format} {t : Text} (h : ¬ Unprefixed f.hexDigits t)
    (h' : ¬ Prefixed f.hexDigits t) : parseHex f t = .err .malformedHex := by
  cases hp : parseHex f t with
  | err e => cases e; rfl
  | ok b =>
    obtain ⟨pre, d, rfl, hlen, hd⟩ := exists_prefix_of_parseHex_ok hp
    cases pre with
    | none => exact absurd (unprefixed_iff.mpr ⟨hlen, hd⟩) h
    | lowerX => exact absurd (prefixed_iff.mpr ⟨.lowerX, d, .inl rfl, rfl, hlen, hd⟩) h'
    | upperX => exact absurd (prefixed_iff.mpr ⟨.upperX, d, .inr rfl, rfl, hlen, hd⟩) h'

/-- Settles O23: the two forms of an accepted text are a prefix and `n` hex digits, whose accumulation has those digits
in base 16. -/
theorem acceptedTextsAreAssembledBySignificance : Obligations.AcceptedTextsAreAssembledBySignificance := by
  intro f t s ht n digitsFrom unprefixed prefixed assembled
  obtain ⟨u, hexec, hinp, hresp⟩ := exec_parseHex_of_presentsText (f := f) ht
  refine ⟨u, hexec, hinp, fun h => ?_, fun h => ?_, fun h h' => ?_⟩
  · obtain ⟨hlen, hd⟩ := unprefixed_iff.mp h
    obtain ⟨b, hok, hb, hassembled⟩ := parseHex_assembled .none hlen hd
    exact ⟨b, hresp.trans (congrArg (fun r => some (Response.parsed r)) hok), hb, hassembled⟩
  · obtain ⟨pre, d, hpre, rfl, hlen, hd⟩ := prefixed_iff.mp h
    obtain ⟨b, hok, hb, hassembled⟩ := parseHex_assembled pre hlen hd
    have htwo : pre.chars.length = 2 := by obtain rfl | rfl := hpre <;> rfl
    rw [htwo] at hassembled
    exact ⟨b, by rw [hresp, hok], hb, hassembled⟩
  · rw [hresp, parseHex_eq_err_of_neither h h']

/-- Settles O24: the answer drives the pattern, which fits below the format's width, and the error drives its code. -/
theorem parseHexDrivesThePorts : Obligations.ParseHexDrivesThePorts := by
  intro f s
  refine ⟨_, exec_parseHex f s, doParseHex_inp f s, ?_⟩
  obtain ⟨t, b, -, hok, hdo⟩ | ⟨-, hdo⟩ := doParseHex_cases f s
  · left
    have hb := parseHex_ok_lt hok
    have hout := patternPins_bitsOut_toNat (p := s.inp) hb
    rw [hdo, answerPattern_response, answerPattern_out, hout]
    exact ⟨b, rfl, rfl, rfl, Nat.div_eq_of_lt hb⟩
  · right
    rw [hdo, raiseError_response, raiseError_out]
    exact ⟨rfl, rfl, rfl⟩

/-- A `text_len` above 18 or above the text port carries no text that PARSEHEX accepts (R47, R88). -/
theorem doParseHex_of_long {f : Format} {s : State} (h : 18 < s.inp.textLen ∨ s.inp.text.length < s.inp.textLen) :
    doParseHex f s = raiseError f .malformedHex s := by
  obtain ⟨t, b, ht, hok, -⟩ | ⟨-, hdo⟩ := doParseHex_cases f s
  · have hlen := textOperand_length ht
    rw [textOperand, firstEntries_eq] at ht
    split_ifs at ht with hport
    rw [parseHex_long (by omega)] at hok
    cases hok
  · exact hdo

/-- Settles O26: such a text is the error, whatever its entries are. -/
theorem longTextsAreMalformed : Obligations.LongTextsAreMalformed := by
  intro f s hlong
  refine ⟨_, exec_parseHex f s, ?_⟩
  rw [doParseHex_of_long hlong, raiseError_response, raiseError_out]
  exact ⟨rfl, rfl⟩

/-- What PARSEHEX reads of ports that carry `t` is `t` (R23). -/
theorem readByParseHex_of_presentsText {t : Text} {p p' : InPorts} (h : presentsText t p) (h' : presentsText t p')
    (f : Format) : readByParseHex f p = readByParseHex f p' := by
  obtain ⟨hlen, hpre⟩ := h
  obtain ⟨hlen', hpre'⟩ := h'
  refine readByParseHex_congr (hlen.trans hlen'.symm) ?_
  rw [hlen, hlen', ← List.prefix_iff_eq_take.mp hpre, ← List.prefix_iff_eq_take.mp hpre']

/-- Settles O27: the response and every output depend on what PARSEHEX reads, which is the text. -/
theorem parseHexReadsOnlyTheText : Obligations.ParseHexReadsOnlyTheText := by
  intro f t s s' ht ht'
  obtain ⟨u, hexec, -, hresp⟩ := exec_parseHex_of_presentsText (f := f) ht
  obtain ⟨u', hexec', -, hresp'⟩ := exec_parseHex_of_presentsText (f := f) ht'
  obtain ⟨-, hout⟩ := doParseHex_outputs_congr (readByParseHex_of_presentsText ht ht' f)
  obtain rfl := Host.Outcome.next.inj ((exec_parseHex f s).symm.trans hexec)
  obtain rfl := Host.Outcome.next.inj ((exec_parseHex f s').symm.trans hexec')
  exact ⟨_, _, _, hexec, hexec', hresp, hresp', by rw [hout], by rw [hout]⟩

/-- An answered request, presented again, leaves the state as it is (R35). -/
theorem exec_next_idempotent {i : Instr} {s t : State} (h : exec i s = .next t) : exec i t = .next t := by
  rw [exec_congr (exec_next_inp h), h]

/-- Settles O33: the error is a response on the outputs, and the inputs it was answered from are still there. -/
theorem malformedHexIsOnlyAResponse : Obligations.MalformedHexIsOnlyAResponse := by
  intro f t s ht herr
  have hexec := exec_parseHex f s
  rw [doParseHex_of_text (textOperand_of_presentsText ht), herr] at hexec
  exact ⟨_, hexec, rfl, rfl, rfl, exec_next_idempotent hexec⟩

end Sys2Proof.Machine
end

section
/-! How many texts PARSEHEX accepts. -/

namespace Sys2Proof.Machine

/-- A choice of first character and a choice of the rest are independent. -/
theorem ncard_image2_cons (C : Set CharCode) (D : Set Text) : (Set.image2 List.cons C D).ncard = C.ncard * D.ncard := by
  have hinj : Function.Injective (Function.uncurry (List.cons : CharCode → Text → Text)) := by
    rintro ⟨c, d⟩ ⟨c', d'⟩ h
    obtain ⟨rfl, rfl⟩ := List.cons.inj h
    rfl
  rw [← Set.image_uncurry_prod, Set.ncard_image_of_injective _ hinj, Set.ncard_prod]

/-- The three choices of prefix (R49). -/
def prefixes : Finset Prefix := {.none, .lowerX, .upperX}

theorem mem_prefixes (pre : Prefix) : pre ∈ prefixes := by cases pre <;> decide

theorem prefix_chars_injective : Function.Injective Prefix.chars := by
  intro pre pre'
  cases pre <;> cases pre' <;> decide

/-- Each digit text stands behind the three prefixes in three different texts (R86). -/
theorem ncard_stripPrefix_mem {D : Set Text} (hD : ∀ d ∈ D, ∀ c ∈ d, isHex c = true) :
    { t : Text | stripPrefix t ∈ D }.ncard = 3 * D.ncard := by
  have himage : { t : Text | stripPrefix t ∈ D } =
      Function.uncurry (fun pre d => Prefix.chars pre ++ d) '' ((prefixes : Set Prefix) ×ˢ D) := by
    ext t
    rw [Set.mem_ofPred_eq, stripPrefix_mem_iff hD, Set.image_uncurry_prod, Set.mem_image2]
    simp only [Finset.mem_coe, mem_prefixes, true_and, eq_comm]
  have hinj : Set.InjOn (Function.uncurry fun pre d => Prefix.chars pre ++ d) ((prefixes : Set Prefix) ×ˢ D) := by
    rintro ⟨pre, d⟩ ⟨-, hd⟩ ⟨pre', d'⟩ ⟨-, hd'⟩ h
    obtain rfl : d = d' := (stripPrefix_prefix pre (hD d hd)).symm.trans
      ((congrArg stripPrefix h).trans (stripPrefix_prefix pre' (hD d' hd')))
    obtain rfl : pre = pre' := prefix_chars_injective (List.append_cancel_right h)
    rfl
  rw [himage, hinj.ncard_image, Set.ncard_prod, Set.ncard_coe_finset]
  rfl

/-- A digit has two characters if it is a letter, and one otherwise (R48). -/
theorem ncard_hexChars {v : Nat} (hv : v < 16) : Set.ncard {c | ∃ u, c = hexChar u v} = if 10 ≤ v then 2 else 1 := by
  have hset : {c | ∃ u, c = hexChar u v} = (({hexChar true v, hexChar false v} : Finset CharCode) : Set CharCode) := by
    ext c
    simp only [Set.mem_ofPred_eq, Bool.exists_bool, Finset.coe_insert, Finset.coe_singleton, Set.mem_insert_iff,
      Set.mem_singleton_iff, or_comm]
  have hcard : ∀ w : Fin 16,
      ({hexChar true w, hexChar false w} : Finset CharCode).card = if 10 ≤ w.val then 2 else 1 := by decide
  rw [hset, Set.ncard_coe_finset]
  exact hcard ⟨v, hv⟩

/-- The spellings of `n + 1` digits: any character of the first digit, before any spelling of the rest. -/
theorem range_spellDigits_succ (n b : Nat) :
    (Set.range fun upper => spellDigits upper (n + 1) b) =
      Set.image2 List.cons {c | ∃ u, c = hexChar u (b / 16 ^ n % 16)} (Set.range fun upper => spellDigits upper n b) := by
  ext t
  constructor
  · rintro ⟨upper, rfl⟩
    exact ⟨_, ⟨upper n, rfl⟩, _, ⟨upper, rfl⟩, rfl⟩
  · rintro ⟨_, ⟨u, rfl⟩, _, ⟨upper, rfl⟩, rfl⟩
    exact exists_spellDigits_succ u upper n b

/-- Each letter among the `n` digits of `b` doubles the number of spellings (R86). -/
theorem ncard_spellings (n b : Nat) :
    (Set.range fun upper => spellDigits upper n b).ncard =
      2 ^ ((Finset.range n).filter fun k => 10 ≤ b / 16 ^ k % 16).card := by
  induction n with
  | zero => simp [spellDigits]
  | succ n ih =>
    rw [range_spellDigits_succ, ncard_image2_cons, ih, ncard_hexChars (Nat.mod_lt _ (by norm_num)),
      Finset.range_add_one, Finset.filter_insert]
    split_ifs with hletter
    · rw [Finset.card_insert_of_notMem (by simp), pow_succ']
    · rw [one_mul]

/-- Settles O30: behind the prefix stands one of the spellings of the digits. -/
theorem spellingCountOfAPattern : Obligations.SpellingCountOfAPattern := by
  intro f b s hb letters
  simp only [ask_parseHex_eq_ok_iff, parseHex_eq_ok_iff_spelled hb]
  rw [ncard_stripPrefix_mem isHex_of_mem_spellings, ncard_spellings]

/-- The texts of `n` hex digits. -/
def hexTexts (n : Nat) : Set Text := {d | d.length = n ∧ ∀ c ∈ d, isHex c = true}

theorem hexTexts_succ (n : Nat) :
    hexTexts (n + 1) = Set.image2 List.cons {c | isHex c = true} (hexTexts n) := by
  ext t
  constructor
  · rintro ⟨hlen, hd⟩
    obtain _ | ⟨c, cs⟩ := t
    · cases hlen
    · obtain ⟨hc, hcs⟩ := List.forall_mem_cons.mp hd
      exact ⟨c, hc, cs, ⟨Nat.succ.inj hlen, hcs⟩, rfl⟩
  · rintro ⟨c, hc, cs, ⟨hlen, hcs⟩, rfl⟩
    exact ⟨congrArg Nat.succ hlen, List.forall_mem_cons.mpr ⟨hc, hcs⟩⟩

/-- There are 22 hex digit characters (R48). -/
theorem ncard_isHex : Set.ncard {c : CharCode | isHex c = true} = 22 := by
  have hcard : ((Finset.univ : Finset CharCode).filter fun c => isHex c = true).card = 22 := by decide +kernel
  rw [← hcard, ← Set.ncard_coe_finset, Finset.coe_filter]
  simp only [Finset.mem_univ, true_and]

theorem ncard_hexTexts (n : Nat) : (hexTexts n).ncard = 22 ^ n := by
  induction n with
  | zero =>
    have hnil : hexTexts 0 = {[]} := by
      ext t
      simp only [hexTexts, List.length_eq_zero_iff, Set.mem_ofPred_eq, Set.mem_singleton_iff]
      constructor
      · rintro ⟨rfl, -⟩; rfl
      · rintro rfl; simp
    rw [hnil, Set.ncard_singleton, pow_zero]
  | succ n ih => rw [hexTexts_succ, ncard_image2_cons, ncard_isHex, ih, pow_succ']

/-- A text is accepted exactly when `n` hex digits are left after the prefix (R49). -/
theorem exists_parseHex_eq_ok_iff {f : Format} {t : Text} :
    (∃ b, parseHex f t = .ok b) ↔ stripPrefix t ∈ hexTexts f.hexDigits := by
  simp only [parseHex_eq_ok_iff, exists_and_left, exists_accumulate_iff]
  rfl

/-- Settles O31: behind the prefix stand `n` hex digits, each one of 22 characters. -/
theorem acceptedTextCount : Obligations.AcceptedTextCount := by
  intro f s
  simp only [ask_parseHex_eq_ok_iff, exists_parseHex_eq_ok_iff]
  rw [ncard_stripPrefix_mem fun d hd => hd.2, ncard_hexTexts]

end Sys2Proof.Machine
end

section
/-! The step relation: which request words are answered, and what a step leaves alone. -/

namespace Sys2Proof.Machine

@[simp] theorem instrDecompose_wellFormed (f : Format) : (Instr.decompose f).wellFormed = true := by cases f <;> rfl

@[simp] theorem instrParseHex_wellFormed (f : Format) : (Instr.parseHex f).wellFormed = true := by cases f <;> rfl

/-- A request word that names a format is answered with a response (R122). -/
theorem step_of_wellFormed {s : State} (h : (decode s.inp.cmd).wellFormed = true) :
    ∃ t r, step s = .next t ∧ t.response = some r := by
  rw [step_eq_exec]
  obtain ⟨f, -, hexec⟩ | ⟨f, -, hexec⟩ | ⟨hbad, -⟩ := exec_cases (decode s.inp.cmd) s
  · exact ⟨_, _, hexec, doDecompose_response f s⟩
  · obtain ⟨r, hr, -⟩ := doParseHex_shows f s
    exact ⟨_, r, hexec, hr⟩
  · rw [hbad] at h
    cases h

/-- A request word that names no format is refused (R53). -/
theorem step_of_not_wellFormed {s : State} (h : (decode s.inp.cmd).wellFormed = false) :
    step s = .refused .reservedFormat := by
  rw [step_eq_exec]
  obtain ⟨f, hi, -⟩ | ⟨f, hi, -⟩ | ⟨-, hexec⟩ := exec_cases (decode s.inp.cmd) s
  · rw [hi, instrDecompose_wellFormed] at h
    cases h
  · rw [hi, instrParseHex_wellFormed] at h
    cases h
  · exact hexec

/-- Settles O35: the step looks at the `fmt` field alone to answer or to refuse. -/
theorem stepAnswersExactlyTheLegalWords : Obligations.StepAnswersExactlyTheLegalWords := by
  intro s
  have hlegal := decode_wellFormed_iff s.inp.cmd
  have hreserved := not_congr hlegal
  rw [ne_eq, not_not, Bool.not_eq_true] at hreserved
  rw [← hlegal, ← hreserved]
  cases hwf : (decode s.inp.cmd).wellFormed with
  | true =>
    obtain ⟨t, r, hstep, hr⟩ := step_of_wellFormed hwf
    simp [hstep, hr]
  | false => simp [step_of_not_wellFormed hwf]

/-- Settles O36: `exec` passes the inputs on and reads nothing else (R14, R35). -/
theorem noRequestChangesTheInputs : Obligations.NoRequestChangesTheInputs := by
  intro i s t hexec
  refine ⟨exec_next_inp hexec, fun out r => ?_⟩
  rw [← hexec]
  exact exec_congr rfl

/-- Settles O38: the answered state has the inputs it was answered from, and a step depends on them alone (R35). -/
theorem requestsAreIdempotent : Obligations.RequestsAreIdempotent := by
  intro s t hstep
  have hinp : t.inp = s.inp := exec_next_inp hstep
  rw [step_congr hinp, hstep]

/-- Settles O34: the arms of the two reserved words are the refusal. -/
theorem reservedWordsAreRefused : Obligations.ReservedWordsAreRefused := fun _ => ⟨rfl, rfl⟩

/-- Settles O4: a step decodes the word at `cmd`, and decoding inverts encoding. -/
theorem stepRunsTheRequestWord : Obligations.StepRunsTheRequestWord := by
  intro i s hcmd
  rw [step_eq_exec, hcmd, decode_encode]

/-- Driving the number of a word on `cmd` drives the word (R40). -/
theorem withFetchWord_toNat (s : State) (nbits : Nat) (w : RequestWord) :
    s.withFetchWord nbits w.toNat = s.drive { s.inp with cmd := w } := by
  rw [State.withFetchWord, BitVec.ofNat_toNat, BitVec.setWidth_eq, State.drive]

theorem decodeTableWord_toNat (nbits : Nat) (w : RequestWord) : decodeTableWord nbits w.toNat = some (decode w) := by
  rw [decodeTableWord, decodeWord, if_pos w.isLt, BitVec.ofNat_toNat, BitVec.setWidth_eq]

/-- Settles O5: the word of an instruction is below 8, so driving its number puts the word itself on `cmd`. -/
theorem withFetchWordRunsTheWord : Obligations.WithFetchWordRunsTheWord := by
  intro i s nbits
  have hdrive := withFetchWord_toNat s nbits (encode i)
  refine ⟨?_, ?_, hdrive⟩
  · rw [decodeTableWord_toNat, decode_encode]
  · rw [hdrive]
    exact stepRunsTheRequestWord i _ rfl

end Sys2Proof.Machine
end

section
/-! Requests presented by the host, and host sequences. -/

namespace Sys2Proof.Machine

/-- Settles O39: what is presented is what is read back, and it is answered with `F` of it. -/
theorem presentedRequestIsAnswered : Obligations.PresentedRequestIsAnswered := by
  intro r s hr
  obtain ⟨u, hstep, hresp⟩ := step_present_answer hr s
  simp only [State.ask, hstep, hresp]

/-- A presented request, in range or not, reads a response that depends on the request alone (R37). -/
theorem exists_response_of_present (r : Request) :
    ∃ a, ∀ s : State, ∃ u, step (s.drive (present r s.inp)) = .next u ∧ u.response = some a := by
  cases r with
  | decompose f b =>
    exact ⟨_, fun s => ⟨_, step_present_decompose f b s, answerFields_response f _ _⟩⟩
  | parseHex f t =>
    refine ⟨.parsed (parseHex f t), fun s => ?_⟩
    obtain ⟨u, hstep, -, hresp⟩ := step_present_parseHex f t s
    exact ⟨u, hstep, hresp⟩

@[simp] theorem responses_after (a : Response) (run : HostRun) :
    (run.after a).responses = (run.responses.1, a :: run.responses.2) := by
  cases run <;> rfl

/-- Settles O41, by induction on the host sequence: a request reads the same response from every state, and raw ports
are all that a step reads. -/
theorem hostSequencesDoNotSeeTheStartState : Obligations.HostSequencesDoNotSeeTheStartState := by
  intro prog
  induction prog with
  | done =>
    intro s s'
    rfl
  | ask r next ih =>
    intro s s'
    obtain ⟨a, hask⟩ := exists_response_of_present r
    obtain ⟨u, hstep, hresp⟩ := hask s
    obtain ⟨u', hstep', hresp'⟩ := hask s'
    rw [HostProgram.run, HostProgram.run, askPorts_of_step hstep hresp, askPorts_of_step hstep' hresp', responses_after,
      responses_after, ih a u u']
  | drive p next ih =>
    intro s s'
    have hstep : step (s.drive p) = step (s'.drive p) := step_congr rfl
    rw [HostProgram.run, HostProgram.run, askPorts, askPorts, hstep]

/-- Presenting a text reads `parseHex` of it and goes on from some state, whatever the length of the text. -/
theorem run_ask_parseHex (f : Format) (t : Text) (next : Response → HostProgram) (s : State) :
    ∃ u, (HostProgram.ask (.parseHex f t) next).run s =
      ((next (.parsed (parseHex f t))).run u).after (.parsed (parseHex f t)) := by
  obtain ⟨u, hstep, -, hresp⟩ := step_present_parseHex f t s
  exact ⟨u, askPorts_of_step hstep hresp⟩

/-- Settles O42: the second request is presented only after `Ok`, and its pattern is one of the format (R57, R87). -/
theorem convertHexParsesThenDecomposes : Obligations.ConvertHexParsesThenDecomposes := by
  intro f t s
  obtain ⟨u, hrun⟩ : ∃ u, (convertHex f t).run s = _ := run_ask_parseHex f t _ s
  rw [hrun, responses_after]
  constructor
  · intro b hok
    have hb : (Request.decompose f b).wellFormed = true := decide_eq_true (parseHex_ok_lt hok)
    obtain ⟨u', hrun'⟩ := run_ask hb (fun _ => .done) u
    rw [hok, hrun', responses_after]
    rfl
  · intro herr
    rw [herr]
    rfl

/-- Settles O43: the reset ports have the right size, and the reset outputs are those of the request they carry,
DECOMPOSE.H of zero (R27, R115). -/
theorem resetMeetsTheInvariant : Obligations.ResetMeetsTheInvariant := by
  refine ⟨⟨?_, fun r hr => by cases hr⟩, rfl, _, exec_decompose .binary16 State.reset, rfl, rfl⟩
  rw [InPorts.wellFormed, Bool.and_eq_true, decide_eq_true_eq, decide_eq_true_eq]
  exact ⟨List.length_replicate, lt_two_pow_lenW (Nat.zero_le _)⟩

end Sys2Proof.Machine
end

section
/-! The format table, the request words and the character codes. -/

namespace Sys2Proof.Machine

/-- Settles O1: the derived constants follow from the two field widths (R7, R8). -/
theorem formatConstantsMatchTheTable : Obligations.FormatConstantsMatchTheTable :=
  ⟨fun f => ⟨f.totalBits_eq, rfl, f.hexDigits_eq⟩, by decide⟩

/-- Settles O2: the eight words by their fields, and a wider number by its size (R40, R42). -/
theorem requestWordsDecodeToTheirRows : Obligations.RequestWordsDecodeToTheirRows := by
  refine ⟨by decide, fun w hw => ?_⟩
  rw [decodeWord, if_neg (by omega)]

/-- Settles O3: a word is its two fields, and every code of a field is read back (R40 to R42). -/
theorem requestWordRoundTrip : Obligations.RequestWordRoundTrip := ⟨decode_encode, encode_decode⟩

/-- The hex digits by their three runs of codes (R48). -/
theorem isHex_iff (c : CharCode) :
    isHex c = true ↔ (0x30 ≤ c.toNat ∧ c.toNat ≤ 0x39) ∨ (0x41 ≤ c.toNat ∧ c.toNat ≤ 0x46) ∨
      (0x61 ≤ c.toNat ∧ c.toNat ≤ 0x66) := by
  rw [isHex, hexVal]
  split_ifs <;> simp <;> omega

/-- Settles O6: each run of codes is one test of `hexVal`, and its values count up along the run. -/
theorem hexDigitCodesAreAscii : Obligations.HexDigitCodesAreAscii := by
  refine ⟨isHex_iff, ?_, ?_, fun c => ?_⟩
  · decide
  · decide
  · rw [isPrefixX, Bool.or_eq_true, beq_iff_eq, beq_iff_eq]

end Sys2Proof.Machine
end
